-- ==== Sys2Proof/Word.lean ====
section
/-! DEFINITION. The word types of the machine and their plainest arithmetic (R7, R8, R20, R22, R90, R91). -/

namespace Sys2Proof

/-- A byte of memory, a general register, a timer (R20, R27, R28, R60). -/
abbrev Byte := BitVec 8

/-- A 12-bit value: `PC`, `I`, a stack entry, the `nnn` field (R22, R23, R26, R91). -/
abbrev Addr := BitVec 12

/-- An instruction word (R90). -/
abbrev InstrWord := BitVec 16

/-- The number of a general register, `V0` to `VF`; all 16 are legal (R94). -/
abbrev RegIdx := Fin 16

/-- `trunc8(v) = v mod 256` (R8): the only wrap of this machine, always written out. -/
def trunc8 (v : Nat) : Byte := BitVec.ofNat 8 v

/-- A bit as the value a flag write leaves in `VF`: 1 or 0 (R21). -/
def flagByte (b : Bool) : Byte := if b then 1 else 0

@[simp] theorem trunc8_toNat (v : Nat) : (trunc8 v).toNat = v % 256 := by
  simp [trunc8]

@[simp] theorem flagByte_true : flagByte true = 1 := rfl

@[simp] theorem flagByte_false : flagByte false = 0 := rfl

end Sys2Proof
end

