-- ==== Sys2Proof/Config.lean ====
section
/-! DEFINITION. What an implementation fixes (the parameters of R5, as types; the values in force stand in
Machine/Policy.lean) and the free values (opaque constants with no body: nothing can be proved of them). -/

namespace Sys2Proof

/-- `SYS_POLICY` (R5, D1): what `0nnn` does. -/
inductive SysPolicy where
  /-- It raises InvalidOpcode (the default). -/
  | fault
  /-- It only advances the program counter. -/
  | nop
deriving DecidableEq, Repr

/-- `FLAG_WRITE_ORDER` (R5, R130, D3): which write wins when `Vx` is `VF`. -/
inductive FlagWriteOrder where
  /-- The flag is written after the result (the default). -/
  | flagLast
  /-- The result is written after the flag. -/
  | resultLast
deriving DecidableEq, Repr

/-- `KEY_INDEX_POLICY` (R5, R200, D11): `Ex9E`/`ExA1` with `Vx > 15`. -/
inductive KeyIndexPolicy where
  /-- They raise OutOfBounds (the default). -/
  | fault
  /-- The low four bits of `Vx` name the key. -/
  | mask
deriving DecidableEq, Repr

/-- `FONT_WRITE_POLICY` (R5, R67, D15): stores to addresses 0 to 511. -/
inductive FontWritePolicy where
  /-- They are stores like any other (the default). -/
  | allow
  /-- They raise OutOfBounds. -/
  | fault
deriving DecidableEq, Repr

/-- The parameters of R5 that the spec leaves to the modeller, one field each. -/
structure Params where
  sysPolicy       : SysPolicy
  decodeStrict    : Bool
  flagWriteOrder  : FlagWriteOrder
  keyIndexPolicy  : KeyIndexPolicy
  fontWritePolicy : FontWritePolicy
deriving DecidableEq, Repr

namespace Config

/-- `MEM_SIZE` (R5, R60). -/
abbrev memSize : Nat := 4096

/-- `ROM_BASE` (R5): load address of the ROM, reset `PC`, lowest legal jump target. -/
abbrev romBase : Nat := 512

/-- `ROM_MAX` (R5): the longest ROM accepted. -/
abbrev romMax : Nat := 3584

/-- FREE VALUE (U1, R172, R250): the byte the random source gives to the `k`-th executed `Cxkk`. No law holds of it:
not uniformity, not independence. Log 20. -/
opaque randomByte (k : Nat) : Byte

/-- FREE VALUE, of any type: the `j`-th value that the spec calls unspecified in the host's `k`-th operation: the
answers of queries on a stopped machine (R254, U11; log 24) and the state a failed `construct` leaves (D24, U13;
log 22). -/
opaque unspecified (α : Type) [Inhabited α] (k j : Nat) : α

end Config

end Sys2Proof
end

