-- ==== Sys2Proof/Machine/Policy.lean ====
section
/-! DEFINITION. The values in force of the parameters of R5: the spec's own defaults. -/

namespace Sys2Proof

/-- The spec's defaults (R5): D1, D2, D3, D11, D15. DESIGN CHOICE of the spec; log 2, 3, 4, 11, 15. -/
def params : Params where
  sysPolicy       := .fault
  decodeStrict    := true
  flagWriteOrder  := .flagLast
  keyIndexPolicy  := .fault
  fontWritePolicy := .allow

/-- `FONT[0..79]` (R30): 16 glyphs of 5 bytes. PRESUMED by the spec (G6, D5): the document gives no byte; log 6. -/
def font : List Byte :=
  [0xF0, 0x90, 0x90, 0x90, 0xF0] ++ [0x20, 0x60, 0x20, 0x20, 0x70] ++
  [0xF0, 0x10, 0xF0, 0x80, 0xF0] ++ [0xF0, 0x10, 0xF0, 0x10, 0xF0] ++
  [0x90, 0x90, 0xF0, 0x10, 0x10] ++ [0xF0, 0x80, 0xF0, 0x10, 0xF0] ++
  [0xF0, 0x80, 0xF0, 0x90, 0xF0] ++ [0xF0, 0x10, 0x20, 0x40, 0x40] ++
  [0xF0, 0x90, 0xF0, 0x90, 0xF0] ++ [0xF0, 0x90, 0xF0, 0x10, 0xF0] ++
  [0xF0, 0x90, 0xF0, 0x90, 0x90] ++ [0xE0, 0x90, 0xE0, 0x90, 0xE0] ++
  [0xF0, 0x80, 0x80, 0x80, 0xF0] ++ [0xE0, 0x90, 0x90, 0x90, 0xE0] ++
  [0xF0, 0x80, 0xF0, 0x80, 0xF0] ++ [0xF0, 0x80, 0xF0, 0x80, 0x80]

end Sys2Proof
end

