-- ==== Sys2Proof/WellFormed.lean ====
section
/-! DEFINITION. Which terms of `Instr` are instructions: the fields' types bound every operand (R94), so the one
check is that `SYS nnn` is not one of the words that select another row (R95, R98). -/

namespace Sys2Proof

/-- Is `0nnn` the `SYS` row? Not for the words 0x00E0 and 0x00EE (R98); without `DECODE_STRICT` not for any
`0NE0`, `0NEE` (R96). -/
def sysFieldOk (strict : Bool) (nnn : Addr) : Bool :=
  if strict then nnn != 0x0E0 && nnn != 0x0EE
  else nnn.extractLsb' 0 8 != 0xE0 && nnn.extractLsb' 0 8 != 0xEE

/-- An instruction that some word encodes. -/
def Instr.wellFormed : Instr → Bool
  | .sys nnn => sysFieldOk params.decodeStrict nnn
  | .cls => true
  | .ret => true
  | .jp _ => true
  | .call _ => true
  | .seImm _ _ => true
  | .sneImm _ _ => true
  | .seReg _ _ => true
  | .ldImm _ _ => true
  | .addImm _ _ => true
  | .ldReg _ _ => true
  | .orReg _ _ => true
  | .andReg _ _ => true
  | .xorReg _ _ => true
  | .addReg _ _ => true
  | .subReg _ _ => true
  | .shr _ _ => true
  | .subnReg _ _ => true
  | .shl _ _ => true
  | .sneReg _ _ => true
  | .ldI _ => true
  | .jpV0 _ => true
  | .rnd _ _ => true
  | .drw _ _ _ => true
  | .skp _ => true
  | .sknp _ => true
  | .ldVxDT _ => true
  | .ldVxK _ => true
  | .ldDTVx _ => true
  | .ldSTVx _ => true
  | .addI _ => true
  | .ldF _ => true
  | .ldB _ => true
  | .storeRegs _ => true
  | .loadRegs _ => true

end Sys2Proof
end

