-- ==== Sys2Proof/Decode.lean ====
section
/-! DEFINITION. The decoder, total on any word and any bytes, and the encoder (R90 to R99). -/

namespace Sys2Proof

/-- Why the decoder reads no instruction: the rows of R99 (but `0nnn`, which is the row `SYS`), and bytes that end
before the word does. -/
inductive Illegal where
  /-- `5xyN` with `N` not 0 -/
  | family5
  /-- `8xyN` with `N` in 8 to D, F -/
  | family8
  /-- `9xyN` with `N` not 0 -/
  | family9
  /-- `Exkk` with `kk` neither 9E nor A1 -/
  | familyE
  /-- `Fxkk` with none of the nine sub-selectors -/
  | familyF
  /-- Fewer than two bytes: there is no word. -/
  | truncated
deriving DecidableEq, Repr

/-- `fam = w[15:12]` (R91). -/
def famOf (w : InstrWord) : BitVec 4 := w.extractLsb' 12 4

/-- `x = w[11:8]` (R91). -/
def xOf (w : InstrWord) : RegIdx := (w.extractLsb' 8 4).toFin

/-- `y = w[7:4]` (R91). -/
def yOf (w : InstrWord) : RegIdx := (w.extractLsb' 4 4).toFin

/-- `nnn = w[11:0]` (R91). -/
def nnnOf (w : InstrWord) : Addr := w.extractLsb' 0 12

/-- `kk = w[7:0]` (R91). -/
def kkOf (w : InstrWord) : Byte := w.extractLsb' 0 8

/-- `n = w[3:0]` (R91). -/
def nOf (w : InstrWord) : Fin 16 := (w.extractLsb' 0 4).toFin

/-- Family 0x0 (R96, R97, R98). Strict: exactly 0x00E0 and 0x00EE are `CLS` and `RET`; lenient: the low byte alone
decides. -/
def decode0 (strict : Bool) (w : InstrWord) : Instr :=
  if strict then
    if w = 0x00E0#16 then .cls else if w = 0x00EE#16 then .ret else .sys (nnnOf w)
  else
    if kkOf w = 0xE0#8 then .cls else if kkOf w = 0xEE#8 then .ret else .sys (nnnOf w)

/-- Family 0x8, sub-dispatched on `n` (R96, R97). -/
def decode8 (w : InstrWord) : Except Illegal Instr :=
  match (nOf w).val with
  | 0x0 => .ok (.ldReg (xOf w) (yOf w))
  | 0x1 => .ok (.orReg (xOf w) (yOf w))
  | 0x2 => .ok (.andReg (xOf w) (yOf w))
  | 0x3 => .ok (.xorReg (xOf w) (yOf w))
  | 0x4 => .ok (.addReg (xOf w) (yOf w))
  | 0x5 => .ok (.subReg (xOf w) (yOf w))
  | 0x6 => .ok (.shr (xOf w) (yOf w))
  | 0x7 => .ok (.subnReg (xOf w) (yOf w))
  | 0xE => .ok (.shl (xOf w) (yOf w))
  | _ => .error .family8

/-- Family 0xE, sub-dispatched on `kk` (R96, R97). -/
def decodeE (w : InstrWord) : Except Illegal Instr :=
  match (kkOf w).toNat with
  | 0x9E => .ok (.skp (xOf w))
  | 0xA1 => .ok (.sknp (xOf w))
  | _ => .error .familyE

/-- Family 0xF, sub-dispatched on `kk` (R96, R97). -/
def decodeF (w : InstrWord) : Except Illegal Instr :=
  match (kkOf w).toNat with
  | 0x07 => .ok (.ldVxDT (xOf w))
  | 0x0A => .ok (.ldVxK (xOf w))
  | 0x15 => .ok (.ldDTVx (xOf w))
  | 0x18 => .ok (.ldSTVx (xOf w))
  | 0x1E => .ok (.addI (xOf w))
  | 0x29 => .ok (.ldF (xOf w))
  | 0x33 => .ok (.ldB (xOf w))
  | 0x55 => .ok (.storeRegs (xOf w))
  | 0x65 => .ok (.loadRegs (xOf w))
  | _ => .error .familyF

/-- The decoder of R97, with `DECODE_STRICT` as an argument (R96, D2). -/
def decodeWith (strict : Bool) (w : InstrWord) : Except Illegal Instr :=
  match (famOf w).toNat with
  | 0x0 => .ok (decode0 strict w)
  | 0x1 => .ok (.jp (nnnOf w))
  | 0x2 => .ok (.call (nnnOf w))
  | 0x3 => .ok (.seImm (xOf w) (kkOf w))
  | 0x4 => .ok (.sneImm (xOf w) (kkOf w))
  | 0x5 => if (nOf w).val = 0 ∨ strict = false then .ok (.seReg (xOf w) (yOf w)) else .error .family5
  | 0x6 => .ok (.ldImm (xOf w) (kkOf w))
  | 0x7 => .ok (.addImm (xOf w) (kkOf w))
  | 0x8 => decode8 w
  | 0x9 => if (nOf w).val = 0 ∨ strict = false then .ok (.sneReg (xOf w) (yOf w)) else .error .family9
  | 0xA => .ok (.ldI (nnnOf w))
  | 0xB => .ok (.jpV0 (nnnOf w))
  | 0xC => .ok (.rnd (xOf w) (kkOf w))
  | 0xD => .ok (.drw (xOf w) (yOf w) (nOf w))
  | 0xE => decodeE w
  | _ => decodeF w

/-- The decoder in force: total on all 65536 words, a function of the word alone (R92, R97, R122). -/
def decodeWord (w : InstrWord) : Except Illegal Instr := decodeWith params.decodeStrict w

/-- The word two consecutive bytes make, the first the high one (R63). -/
def wordOfBytes (b0 b1 : Byte) : InstrWord := b0 ++ b1

/-- The first instruction of a list of bytes and the bytes after it; total on any bytes. -/
def decodeBytes : List Byte → Except Illegal (Instr × List Byte)
  | b0 :: b1 :: rest =>
    match decodeWord (wordOfBytes b0 b1) with
    | .ok i => .ok (i, rest)
    | .error e => .error e
  | [_] => .error .truncated
  | [] => .error .truncated

/-- The bytes of the host's word `w` of `nbits` bits, as the hardware stores them: an instruction is one 16-bit word
(R90), its high byte at the lower address (R63); bits from `nbits` up are 0. -/
def tableBytes (nbits w : Nat) : List Byte :=
  [trunc8 (w % 2 ^ nbits / 256), trunc8 (w % 2 ^ nbits)]

/-- The instruction the decoder reads from the host's numbering of an instruction's bits. -/
def decodeTableWord (nbits w : Nat) : Option Instr :=
  match decodeBytes (tableBytes nbits w) with
  | .ok (i, _) => some i
  | .error _ => none

/-! ## The encoder, from the formats of R93 and the rows of R95 -/

/-- A register number as the four bits of a field. -/
def regBits (x : RegIdx) : BitVec 4 := BitVec.ofFin x

/-- Format `NNN`: family, 12-bit address. -/
def formNNN (fam : BitVec 4) (nnn : Addr) : InstrWord := fam ++ nnn

/-- Format `XKK`: family, register, byte. -/
def formXKK (fam : BitVec 4) (x : RegIdx) (kk : Byte) : InstrWord := fam ++ regBits x ++ kk

/-- Formats `XY` and `XYN`: family, two registers, the low nibble. -/
def formXYN (fam : BitVec 4) (x y : RegIdx) (n : BitVec 4) : InstrWord := fam ++ regBits x ++ regBits y ++ n

/-- The word of an instruction (R93, R95). -/
def encode : Instr → InstrWord
  | .sys nnn => formNNN 0x0 nnn
  | .cls => 0x00E0
  | .ret => 0x00EE
  | .jp nnn => formNNN 0x1 nnn
  | .call nnn => formNNN 0x2 nnn
  | .seImm x kk => formXKK 0x3 x kk
  | .sneImm x kk => formXKK 0x4 x kk
  | .seReg x y => formXYN 0x5 x y 0x0
  | .ldImm x kk => formXKK 0x6 x kk
  | .addImm x kk => formXKK 0x7 x kk
  | .ldReg x y => formXYN 0x8 x y 0x0
  | .orReg x y => formXYN 0x8 x y 0x1
  | .andReg x y => formXYN 0x8 x y 0x2
  | .xorReg x y => formXYN 0x8 x y 0x3
  | .addReg x y => formXYN 0x8 x y 0x4
  | .subReg x y => formXYN 0x8 x y 0x5
  | .shr x y => formXYN 0x8 x y 0x6
  | .subnReg x y => formXYN 0x8 x y 0x7
  | .shl x y => formXYN 0x8 x y 0xE
  | .sneReg x y => formXYN 0x9 x y 0x0
  | .ldI nnn => formNNN 0xA nnn
  | .jpV0 nnn => formNNN 0xB nnn
  | .rnd x kk => formXKK 0xC x kk
  | .drw x y n => formXYN 0xD x y (regBits n)
  | .skp x => formXKK 0xE x 0x9E
  | .sknp x => formXKK 0xE x 0xA1
  | .ldVxDT x => formXKK 0xF x 0x07
  | .ldVxK x => formXKK 0xF x 0x0A
  | .ldDTVx x => formXKK 0xF x 0x15
  | .ldSTVx x => formXKK 0xF x 0x18
  | .addI x => formXKK 0xF x 0x1E
  | .ldF x => formXKK 0xF x 0x29
  | .ldB x => formXKK 0xF x 0x33
  | .storeRegs x => formXKK 0xF x 0x55
  | .loadRegs x => formXKK 0xF x 0x65

end Sys2Proof
end

