-- ==== Sys2Proof/Machine/State.lean ====
section
/-! DEFINITION. The machine's state, all of it, as plain data (10_state.md), the ways a step can end, and the state
after reset (R43). -/

namespace Sys2Proof.Machine

/-- `FAULT_CAUSE` (R38, R271): which fatal condition stopped the machine. -/
inductive Cause where
  /-- `FAULT` is false. -/
  | none
  /-- R272 -/
  | outOfBounds
  /-- R273 -/
  | invalidOpcode
  /-- R274 -/
  | protocolViolation
  /-- R275 -/
  | inputContractViolation
deriving DecidableEq, Repr

/-- `MEM` (R29, R60) in one canonical form (`Memory.wf`): the bytes that differ from the reset contents, by rising
address. -/
abbrev Memory := List Host.Cell

/-- `PIX` (R31): 32 rows of 64 pixels, row 0 at the top, column 0 at the left. -/
abbrev Display := Vector (Vector Bool 64) 32

/-- Everything the spec gives the machine (R20 to R38), and `draws`, which is the model's own. -/
structure State where
  /-- `V[0..15]` (R20, R21) -/
  v              : Vector Byte 16
  /-- `I` (R22) -/
  i              : Addr
  /-- `PC` (R23) -/
  pc             : Addr
  /-- `SP` (R25) -/
  sp             : Fin 17
  /-- `STACK[0..15]` (R26) -/
  stack          : Vector Addr 16
  /-- `DT` (R27) -/
  dt             : Byte
  /-- `ST` (R28) -/
  st             : Byte
  /-- `MEM[0..4095]` (R29) -/
  mem            : Memory
  /-- `PIX[0..63][0..31]` (R31) -/
  pix            : Display
  /-- `DIRTY` (R32) -/
  dirty          : Bool
  /-- `KEYS[0..15]` (R33) -/
  keys           : Vector Bool 16
  /-- `WAITING` (R34) -/
  waiting        : Bool
  /-- `KEY_VALID` (R37) -/
  keyValid       : Bool
  /-- `CAPTURED_KEY` (R35) -/
  capturedKey    : Byte
  /-- `shift_quirk` (R36): true is legacy, the source is `Vy` -/
  shiftQuirk     : Bool
  /-- `mem_access_quirk` (R36): true advances `I` in `Fx55`, `Fx65` -/
  memAccessQuirk : Bool
  /-- `FAULT` (R38) -/
  fault          : Bool
  /-- `FAULT_CAUSE` (R38) -/
  faultCause     : Cause
  /-- The model's own: how many bytes of the random source are used up. It picks the free value the next `Cxkk`
  takes (R250: the core holds no generator state); no statement rests on a value of it. Log 20, 41. -/
  draws          : Nat
deriving DecidableEq, Repr

/-- Faults of the model. There are none: every fatal condition of the spec (R270) has an entry that the spec
describes (R277: the latch is set, nothing else is written), so it is a NEXT state, and a stopped machine's step
(R128) is one too. Nobody raises a fault. Log 1. -/
inductive Fault
deriving DecidableEq, Repr

/-- Refusals of the model. -/
inductive Refusal where
  /-- Raised by an arm of `exec` whose instruction has no meaning yet, under its mnemonic (safe). Every instruction
  has its meaning, so nobody raises it. -/
  | notModelled (mnemonic : String)
deriving DecidableEq, Repr

/-- How an instruction or a step ends. -/
abbrev Result := Host.Outcome State Fault Refusal

/-- The blank display: every pixel false (R43, R190). -/
def blankDisplay : Display := Vector.replicate 32 (Vector.replicate 64 false)

/-- The state right after `construct` with an empty ROM and both quirks clear (R43). `PC = 512` and the font are the
document's; the zeros are the spec's D4, D6, D10, D25 (log 5, 7, 10, 23); both quirks false is the model's choice of
construction arguments (log 25). -/
def State.reset : State where
  v              := Vector.replicate 16 0
  i              := 0
  pc             := 512
  sp             := 0
  stack          := Vector.replicate 16 0
  dt             := 0
  st             := 0
  mem            := []
  pix            := blankDisplay
  dirty          := false
  keys           := Vector.replicate 16 false
  waiting        := false
  keyValid       := false
  capturedKey    := 0
  shiftQuirk     := false
  memAccessQuirk := false
  fault          := false
  faultCause     := .none
  draws          := 0

end Sys2Proof.Machine
end

