-- ==== Sys2Proof/Machine/Ops.lean ====
section
/-! DEFINITION. The named operations the meanings are written over: memory, registers, the call stack, raising a
fatal condition, and the end of a step. -/

namespace Sys2Proof.Machine

/-! ## Memory (20_memory.md) -/

/-- What an address that the memory does not list reads as: the reset contents, the font table at 0 to 79 (R30) and
0 everywhere else (R43; log 6, 7). -/
def background (a : Nat) : Byte := font.getD a 0

/-- The canonical form from address `lo` on: addresses rise strictly, stay below 4096, and no entry is the
background's. -/
def Memory.wfFrom : Nat → Memory → Bool
  | _, [] => true
  | lo, (a, b) :: m => decide (lo ≤ a) && decide (a < Config.memSize) && b != background a && wfFrom (a + 1) m

/-- The canonical form of a memory: equal memories are equal lists. -/
def Memory.wf (m : Memory) : Bool := Memory.wfFrom 0 m

/-- The byte at an address (R64, without the bound check). -/
def Memory.readByte : Memory → Nat → Byte
  | [], a => background a
  | (c, b) :: m, a => if a = c then b else readByte m a

/-- Put an entry at its place in the rising list. -/
def Memory.putCell : Memory → Nat → Byte → Memory
  | [], a, b => [(a, b)]
  | (c, d) :: m, a, b =>
    if a < c then (a, b) :: (c, d) :: m
    else if a = c then (a, b) :: m
    else (c, d) :: putCell m a b

/-- Take every entry of an address away (there is at most one in the canonical form). -/
def Memory.dropCell : Memory → Nat → Memory
  | [], _ => []
  | (c, d) :: m, a => if a = c then dropCell m a else (c, d) :: dropCell m a

/-- Write a byte (R64, without the bound check), keeping the canonical form. -/
def Memory.writeByte (m : Memory) (a : Nat) (b : Byte) : Memory :=
  if b = background a then m.dropCell a else m.putCell a b

/-- Write bytes at ascending addresses from `a` (R63, R69). -/
def Memory.writeBytes : Memory → Nat → List Byte → Memory
  | m, _, [] => m
  | m, a, b :: bs => writeBytes (Memory.writeByte m a b) (a + 1) bs

/-- Does an access to `len` bytes from `a` stay below 4096 (R64, R70)? It reads the whole range before any byte is
moved. -/
def rangeOk (a len : Nat) : Bool := decide (a + len ≤ Config.memSize)

/-- May a store to `len` bytes from `a` go ahead (R64, R67, R70)? -/
def storeOk (p : FontWritePolicy) (a len : Nat) : Bool :=
  rangeOk a len &&
    match p with
    | .allow => true
    | .fault => decide (Config.romBase ≤ a)

/-- `MemRead(addr, 2)` (R63, R65): the big-endian word at `a`; none is OutOfBounds. -/
def fetchWord (m : Memory) (a : Nat) : Option InstrWord :=
  if a + 1 < Config.memSize then some (wordOfBytes (m.readByte a) (m.readByte (a + 1))) else none

/-! ## Registers -/

/-- Read `V[x]` (R9). -/
def State.reg (s : State) (x : RegIdx) : Byte := s.v[x.val]

/-- `V[x] <- b` (R9). -/
def State.setReg (s : State) (x : RegIdx) (b : Byte) : State := { s with v := s.v.set x.val b }

/-! ## Fatal conditions (60_exceptions.md) -/

/-- The numeric `FAULT_CAUSE` (R271). Log 9. -/
def Cause.code : Cause → BitVec 3
  | .none => 0
  | .outOfBounds => 1
  | .invalidOpcode => 2
  | .protocolViolation => 3
  | .inputContractViolation => 4

/-- The state a fatal condition leaves (R127, R277): the latch holds the cause, nothing else is written. -/
def State.latch (s : State) (c : Cause) : State := { s with fault := true, faultCause := c }

/-- `raise` (R9, R277): taking a fatal condition. `s` is the state as the step began, so nothing the handler did is
committed (R127; log 1). There is no return from it but `construct` (R279, R301: `construct` in HostOps.lean). -/
def raise (c : Cause) (s : State) : Result := .next (s.latch c)

/-! ## The end of a step (R120, R123, R124, R126) -/

/-- Commit: `s` is the state as the step began, `s'` holds the handler's writes, `t` is `next_pc`. A `next_pc` of
4096 or more raises OutOfBounds and commits nothing (R126; log 8). -/
def commit (s s' : State) (t : Nat) : Result :=
  if Config.memSize ≤ t then raise .outOfBounds s else .next { s' with pc := BitVec.ofNat 12 t }

/-- The ordinary end of a handler: `next_pc = PC + 2` (R124). -/
def advance (s s' : State) : Result := commit s s' (s.pc.toNat + 2)

/-- The end of a skip instruction: `PC + 4` if the condition holds, else `PC + 2` (R125). -/
def skipIf (c : Bool) (s : State) : Result := commit s s (s.pc.toNat + if c then 4 else 2)

/-- The end of a jump to `t`, with the target check of R141. -/
def jump (s s' : State) (t : Nat) : Result :=
  if t < Config.romBase ∨ Config.memSize ≤ t then raise .outOfBounds s else commit s s' t

/-! ## The call stack (R143, R145, R150) -/

/-- Push a call site; none when the stack is full (`SP = 16`). -/
def State.push (s : State) (a : Addr) : Option State :=
  if h : s.sp.val < 16 then
    some { s with stack := s.stack.set s.sp.val a, sp := ⟨s.sp.val + 1, by omega⟩ }
  else none

/-- Pop a call site; none when the stack is empty (`SP = 0`). The entry stays in `STACK`, dead. -/
def State.pop (s : State) : Option (Addr × State) :=
  if h : 0 < s.sp.val then
    some (s.stack[s.sp.val - 1], { s with sp := ⟨s.sp.val - 1, by omega⟩ })
  else none

end Sys2Proof.Machine
end

