-- ==== Sys2Proof/Machine/Operands.lean ====
section
/-! DEFINITION. The operand forms: the shift source, the key a register names, addresses from `I` and `V0`, blocks
of registers, sprite geometry (R94, R169, R192, R200). -/

namespace Sys2Proof.Machine

/-- The source of a shift: `V[y]` under the legacy quirk, else `V[x]` (R169; log 18). -/
def shiftSource (s : State) (x y : RegIdx) : Byte := if s.shiftQuirk then s.reg y else s.reg x

/-- The key `V[x]` names; none is OutOfBounds (R200; log 11). -/
def keyOf (p : KeyIndexPolicy) (b : Byte) : Option (Fin 16) :=
  match p with
  | .fault => if h : b.toNat < 16 then some ⟨b.toNat, h⟩ else none
  | .mask => some ⟨b.toNat % 16, Nat.mod_lt _ (by decide)⟩

/-- Is key `k` pressed, as the last `set_keys` left it (R33)? -/
def State.keyDown (s : State) (k : Fin 16) : Bool := s.keys[k.val]

/-- The target of `Bnnn`: `nnn + V[0]`, unbounded (R144; log 28). -/
def offsetTarget (s : State) (nnn : Addr) : Nat := nnn.toNat + (s.reg 0).toNat

/-- The address of byte `k` of an `I`-relative access, unbounded (R66). -/
def indexed (s : State) (k : Nat) : Nat := s.i.toNat + k

/-- The bytes of `V[0]` to `V[x]`, in order (R224). -/
def regBlock (s : State) (x : RegIdx) : List Byte := s.v.toList.take (x.val + 1)

/-- `V[k] <- MEM[I + k]` for `k` from 0 to `x`; the registers above `x` stay (R225). -/
def loadedRegs (s : State) (x : RegIdx) : Vector Byte 16 :=
  Vector.ofFn fun k : Fin 16 => if k.val ≤ x.val then s.mem.readByte (indexed s k.val) else s.v[k.val]

/-- `I` after a bulk access: `I + x + 1` with the quirk, else `I` (R224, R225), unbounded. -/
def bulkNextI (s : State) (x : RegIdx) : Nat := if s.memAccessQuirk then s.i.toNat + x.val + 1 else s.i.toNat

/-- The three decimal digits of a byte: hundreds, tens, ones (R223). -/
def bcdDigits (b : Byte) : List Byte :=
  [trunc8 (b.toNat / 100), trunc8 (b.toNat / 10 % 10), trunc8 (b.toNat % 10)]

/-- The sprite's column of origin, `V[x] mod 64` (R191). -/
def originX (b : Byte) : Nat := b.toNat % 64

/-- The sprite's row of origin, `V[y] mod 32` (R191). -/
def originY (b : Byte) : Nat := b.toNat % 32

/-- Bit `7 - c` of a sprite byte: the sprite pixel in column `c` (R192; log 21). -/
def spriteBit (b : Byte) (c : Nat) : Bool := b.getLsbD (7 - c)

end Sys2Proof.Machine
end

