-- ==== Sys2Proof/Machine/Flags.lean ====
section
/-! DEFINITION. Every flag computation: what `VF` receives from an arithmetic or shift instruction (R21, R160), and the
order of the result's and the flag's writes (R130). The collision flag is in Display.lean. -/

namespace Sys2Proof.Machine

/-- The number of `VF` (R21). -/
def vf : RegIdx := 15

/-- Carry of `a + b` (R160, R167). -/
def carryOut (a b : Byte) : Bool := decide (a.toNat + b.toNat > 255)

/-- NOT borrow of `minuend - subtrahend` (R160, R168, R170). -/
def notBorrow (minuend subtrahend : Byte) : Bool := decide (minuend.toNat ≥ subtrahend.toNat)

/-- The bit a right shift puts out: bit 0 (R169). -/
def bitOutRight (b : Byte) : Bool := decide (b.toNat % 2 = 1)

/-- The bit a left shift puts out: bit 7 (R171). -/
def bitOutLeft (b : Byte) : Bool := decide (b.toNat / 128 = 1)

/-- `(a + b) mod 256` (R160). -/
def sum8 (a b : Byte) : Byte := trunc8 (a.toNat + b.toNat)

/-- `(minuend - subtrahend) mod 256`, on unsigned values (R160). -/
def diff8 (minuend subtrahend : Byte) : Byte := trunc8 (minuend.toNat + 256 - subtrahend.toNat)

/-- `s div 2` (R169). -/
def shiftRight1 (b : Byte) : Byte := trunc8 (b.toNat / 2)

/-- `(s * 2) mod 256` (R171). -/
def shiftLeft1 (b : Byte) : Byte := trunc8 (b.toNat * 2)

/-- Write a result to `V[x]` and a flag to `VF` in the order of `FLAG_WRITE_ORDER` (R130; log 4): with the default the
flag is last, so for `x = 15` `VF` ends as the flag. -/
def writeWithFlag (o : FlagWriteOrder) (s : State) (x : RegIdx) (result : Byte) (flag : Bool) : State :=
  match o with
  | .flagLast => (s.setReg x result).setReg vf (flagByte flag)
  | .resultLast => (s.setReg vf (flagByte flag)).setReg x result

end Sys2Proof.Machine
end

