-- ==== Sys2Proof/Machine/Control.lean ====
section
/-! DEFINITION. Control flow (41_control_flow.md). -/

namespace Sys2Proof.Machine

/-- `0nnn` (R140): no handler but the InvalidOpcode condition (`SYS_POLICY`, D1; log 2). -/
def execSys (_nnn : Addr) (s : State) : Result :=
  match params.sysPolicy with
  | .fault => raise .invalidOpcode s
  | .nop => advance s s

/-- `1nnn` (R142). -/
def execJp (nnn : Addr) (s : State) : Result := jump s s nnn.toNat

/-- `2nnn` (R143): the stack's depth is tested before the target (R276; log 17). -/
def execCall (nnn : Addr) (s : State) : Result :=
  match s.push s.pc with
  | none => raise .protocolViolation s
  | some s' => jump s s' nnn.toNat

/-- `Bnnn` (R144). -/
def execJpV0 (nnn : Addr) (s : State) : Result := jump s s (offsetTarget s nnn)

/-- `00EE` (R145). -/
def execRet (s : State) : Result :=
  match s.pop with
  | none => raise .protocolViolation s
  | some (a, s') => commit s s' (a.toNat + 2)

/-- `3xkk` (R146). -/
def execSeImm (x : RegIdx) (kk : Byte) (s : State) : Result := skipIf (s.reg x == kk) s

/-- `4xkk` (R147). -/
def execSneImm (x : RegIdx) (kk : Byte) (s : State) : Result := skipIf (s.reg x != kk) s

/-- `5xy0` (R148). -/
def execSeReg (x y : RegIdx) (s : State) : Result := skipIf (s.reg x == s.reg y) s

/-- `9xy0` (R149). -/
def execSneReg (x y : RegIdx) (s : State) : Result := skipIf (s.reg x != s.reg y) s

end Sys2Proof.Machine
end

