-- ==== Sys2Proof/Machine/Display.lean ====
section
/-! DEFINITION. The display, its clear and draw instructions and the collision unit (43_display.md). -/

namespace Sys2Proof.Machine

/-- `PIX[x][y]` (R31); off the grid there is no pixel. -/
def Display.lit (d : Display) (x y : Nat) : Bool :=
  if h : y < 32 ∧ x < 64 then d[y][x] else false

/-- `PIX[x][y] <- not PIX[x][y]` (R191). -/
def Display.toggle (d : Display) (x y : Nat) : Display :=
  if h : y < 32 ∧ x < 64 then d.set y (d[y].set x (!d[y][x])) else d

/-- The display and the collision bit while a sprite is drawn. -/
abbrev Canvas := Display × Bool

/-- Column `c` of a sprite row `b` at origin column `ox`, on display row `py` (R191): a 1 bit within the right edge
toggles its pixel, and one that is lit collides. -/
def drawBit (b : Byte) (ox py : Nat) (k : Canvas) (c : Nat) : Canvas :=
  if ox + c ≤ 63 ∧ spriteBit b c = true then
    (Display.toggle k.1 (ox + c) py, k.2 || Display.lit k.1 (ox + c) py)
  else k

/-- One sprite row on display row `py`; rows below the bottom edge are clipped (R191). -/
def drawRow (b : Byte) (ox py : Nat) (k : Canvas) : Canvas :=
  if py ≤ 31 then (List.range 8).foldl (drawBit b ox py) k else k

/-- The `n` rows of the sprite at address `a` (R191, R192). -/
def drawSprite (m : Memory) (a ox oy n : Nat) (k : Canvas) : Canvas :=
  (List.range n).foldl (fun k r => drawRow (m.readByte (a + r)) ox (oy + r) k) k

/-- `00E0` (R190). -/
def execCls (s : State) : Result := advance s { s with pix := blankDisplay, dirty := true }

/-- `Dxyn` (R191): the sprite's whole range is checked first; `n = 0` reads nothing and never faults (log 14). -/
def execDrw (x y : RegIdx) (n : Fin 16) (s : State) : Result :=
  if 1 ≤ n.val ∧ Config.memSize ≤ s.i.toNat + n.val - 1 then raise .outOfBounds s
  else
    let k := drawSprite s.mem s.i.toNat (originX (s.reg x)) (originY (s.reg y)) n.val (s.pix, false)
    advance s { s.setReg vf (flagByte k.2) with pix := k.1, dirty := true }

end Sys2Proof.Machine
end

