-- ==== Sys2Proof/Machine/IndexMemory.lean ====
section
/-! DEFINITION. The address register, BCD and the bulk store and load (45_index_memory.md). -/

namespace Sys2Proof.Machine

/-- `Annn` (R220; log 27). -/
def execLdI (nnn : Addr) (s : State) : Result := advance s { s with i := nnn }

/-- `Fx1E` (R221): no wrap and no flag. -/
def execAddI (x : RegIdx) (s : State) : Result :=
  if Config.memSize ≤ s.i.toNat + (s.reg x).toNat then raise .outOfBounds s
  else advance s { s with i := BitVec.ofNat 12 (s.i.toNat + (s.reg x).toNat) }

/-- `Fx29` (R222): `5 * Vx`, at most 1275; the register is not masked. -/
def execLdF (x : RegIdx) (s : State) : Result :=
  advance s { s with i := BitVec.ofNat 12 (5 * (s.reg x).toNat) }

/-- `Fx33` (R223). -/
def execLdB (x : RegIdx) (s : State) : Result :=
  if storeOk params.fontWritePolicy (indexed s 0) 3 then
    advance s { s with mem := s.mem.writeBytes (indexed s 0) (bcdDigits (s.reg x)) }
  else raise .outOfBounds s

/-- `Fx55` (R224): the range and the advanced `I` are checked before any byte is stored (log 13). -/
def execStoreRegs (x : RegIdx) (s : State) : Result :=
  if storeOk params.fontWritePolicy (indexed s 0) (x.val + 1) = true ∧ bulkNextI s x < Config.memSize then
    advance s { s with mem := s.mem.writeBytes (indexed s 0) (regBlock s x), i := BitVec.ofNat 12 (bulkNextI s x) }
  else raise .outOfBounds s

/-- `Fx65` (R225): as `Fx55`, from memory to registers. -/
def execLoadRegs (x : RegIdx) (s : State) : Result :=
  if rangeOk (indexed s 0) (x.val + 1) = true ∧ bulkNextI s x < Config.memSize then
    advance s { s with v := loadedRegs s x, i := BitVec.ofNat 12 (bulkNextI s x) }
  else raise .outOfBounds s

end Sys2Proof.Machine
end

