-- ==== Sys2Proof/Machine/KeypadTimers.lean ====
section
/-! DEFINITION. Key skips, the blocking key wait and the timer instructions (44_keypad_timers.md). -/

namespace Sys2Proof.Machine

/-- `Ex9E` (R200). -/
def execSkp (x : RegIdx) (s : State) : Result :=
  match keyOf params.keyIndexPolicy (s.reg x) with
  | none => raise .outOfBounds s
  | some k => skipIf (s.keyDown k) s

/-- `ExA1` (R201). -/
def execSknp (x : RegIdx) (s : State) : Result :=
  match keyOf params.keyIndexPolicy (s.reg x) with
  | none => raise .outOfBounds s
  | some k => skipIf (!s.keyDown k) s

/-- `Fx07` (R202). -/
def execLdVxDT (x : RegIdx) (s : State) : Result := advance s (s.setReg x s.dt)

/-- `Fx15` (R203). -/
def execLdDTVx (x : RegIdx) (s : State) : Result := advance s { s with dt := s.reg x }

/-- `Fx18` (R204). -/
def execLdSTVx (x : RegIdx) (s : State) : Result := advance s { s with st := s.reg x }

/-- `Fx0A` (R205): begin to wait; wait on; or take the delivered key and go on (log 10). -/
def execLdVxK (x : RegIdx) (s : State) : Result :=
  if s.waiting = false then
    commit s { s with waiting := true, keyValid := false } s.pc.toNat
  else if s.keyValid = false then
    commit s s s.pc.toNat
  else
    advance s { s.setReg x s.capturedKey with waiting := false, keyValid := false }

end Sys2Proof.Machine
end

