-- ==== Sys2Proof/Machine/LoadAlu.lean ====
section
/-! DEFINITION. Register load, arithmetic, logic, shift and random instructions (42_load_alu.md). -/

namespace Sys2Proof.Machine

/-- `6xkk` (R161). -/
def execLdImm (x : RegIdx) (kk : Byte) (s : State) : Result := advance s (s.setReg x kk)

/-- `7xkk` (R162): modulo 256, no flag. -/
def execAddImm (x : RegIdx) (kk : Byte) (s : State) : Result := advance s (s.setReg x (sum8 (s.reg x) kk))

/-- `8xy0` (R163). -/
def execLdReg (x y : RegIdx) (s : State) : Result := advance s (s.setReg x (s.reg y))

/-- `8xy1` (R164). -/
def execOrReg (x y : RegIdx) (s : State) : Result := advance s (s.setReg x (s.reg x ||| s.reg y))

/-- `8xy2` (R165). -/
def execAndReg (x y : RegIdx) (s : State) : Result := advance s (s.setReg x (s.reg x &&& s.reg y))

/-- `8xy3` (R166). -/
def execXorReg (x y : RegIdx) (s : State) : Result := advance s (s.setReg x (s.reg x ^^^ s.reg y))

/-- `8xy4` (R167). -/
def execAddReg (x y : RegIdx) (s : State) : Result :=
  advance s (writeWithFlag params.flagWriteOrder s x (sum8 (s.reg x) (s.reg y)) (carryOut (s.reg x) (s.reg y)))

/-- `8xy5` (R168): `Vx - Vy`. -/
def execSubReg (x y : RegIdx) (s : State) : Result :=
  advance s (writeWithFlag params.flagWriteOrder s x (diff8 (s.reg x) (s.reg y)) (notBorrow (s.reg x) (s.reg y)))

/-- `8xy6` (R169). -/
def execShr (x y : RegIdx) (s : State) : Result :=
  advance s (writeWithFlag params.flagWriteOrder s x (shiftRight1 (shiftSource s x y)) (bitOutRight (shiftSource s x y)))

/-- `8xy7` (R170): `Vy - Vx`. -/
def execSubnReg (x y : RegIdx) (s : State) : Result :=
  advance s (writeWithFlag params.flagWriteOrder s x (diff8 (s.reg y) (s.reg x)) (notBorrow (s.reg y) (s.reg x)))

/-- `8xyE` (R171). -/
def execShl (x y : RegIdx) (s : State) : Result :=
  advance s (writeWithFlag params.flagWriteOrder s x (shiftLeft1 (shiftSource s x y)) (bitOutLeft (shiftSource s x y)))

/-- `Cxkk` (R172, R250): one fresh free byte for each execution (log 20). One that raises at the PC update commits nothing,
`draws` included: DESIGN CHOICE, log 41. -/
def execRnd (x : RegIdx) (kk : Byte) (s : State) : Result :=
  advance s { s.setReg x (Config.randomByte s.draws &&& kk) with draws := s.draws + 1 }

end Sys2Proof.Machine
end

