-- ==== Sys2Proof/Machine/Step.lean ====
section
/-! DEFINITION. The step cycle (R120) and the placing of an instruction where the next step fetches it. -/

namespace Sys2Proof.Machine

/-- `step()` (R120, R242): nothing on a stopped machine (R128); else fetch, decode, execute and the PC update, which
each handler ends in. -/
def step (s : State) : Host.Outcome State Fault Refusal :=
  if s.fault then .next s
  else
    match fetchWord s.mem s.pc.toNat with
    | none => raise .outOfBounds s
    | some w =>
      match decodeWord w with
      | .error _ => raise .invalidOpcode s
      | .ok i => exec i s

/-- The instruction's bytes stored at `PC`, as `construct` stores a ROM's (R252, R300; log 26). The latch is cleared,
since a stopped machine fetches nothing (R128). -/
def State.withFetchWord (s : State) (nbits w : Nat) : State :=
  { s with mem := s.mem.writeBytes s.pc.toNat (tableBytes nbits w), fault := false, faultCause := .none }

end Sys2Proof.Machine
end

