-- ==== Sys2Proof/Machine/HostOps.lean ====
section
/-! DEFINITION. The host's operations other than `step` (50_host_interface.md), reset (70_reset_and_hazards.md), and a
host's run: any sequence of operations (R255). -/

namespace Sys2Proof.Machine

/-! ## Reset: `construct` (R241, R300) -/

/-- A successful `construct` over given launch values: the font, the ROM, `PC` and the quirks are the document's;
`SP = 0`, Idle and no fault are forced by it (U5); everything else is as in `init`, so that a claim may quantify over
what only `RESET_ZERO` fixes (R43; log 5). -/
def constructFrom (init : State) (rom : List Byte) (shiftQuirk memAccessQuirk : Bool) : State :=
  { init with
    mem := (init.mem.writeBytes 0 font).writeBytes Config.romBase rom
    pc := 512
    sp := 0
    waiting := false
    keyValid := false
    shiftQuirk := shiftQuirk
    memAccessQuirk := memAccessQuirk
    fault := false
    faultCause := .none }

/-- The memory that given bytes make, whatever the bytes: addresses from 4096 up do not exist (R62). -/
def memoryOfBytes (bs : List Byte) : Memory := Memory.writeBytes [] 0 (bs.take Config.memSize)

/-- The state after a failed `construct`, the host's `k`-th operation: `FAULT` with OutOfBounds, and every other piece
of state unspecified (R300, D24): free values (log 22). -/
def failedConstruct (k draws : Nat) : State where
  v              := Config.unspecified _ k 0
  i              := Config.unspecified _ k 1
  pc             := Config.unspecified _ k 2
  sp             := Config.unspecified _ k 3
  stack          := Config.unspecified _ k 4
  dt             := Config.unspecified _ k 5
  st             := Config.unspecified _ k 6
  mem            := memoryOfBytes (Config.unspecified _ k 7)
  pix            := Config.unspecified _ k 8
  dirty          := Config.unspecified _ k 9
  keys           := Config.unspecified _ k 10
  waiting        := Config.unspecified _ k 11
  keyValid       := Config.unspecified _ k 12
  capturedKey    := Config.unspecified _ k 13
  shiftQuirk     := Config.unspecified _ k 14
  memAccessQuirk := Config.unspecified _ k 15
  fault          := true
  faultCause     := .outOfBounds
  draws          := draws

/-- `construct(rom_bytes, shift_quirk, mem_access_quirk)` (R241, R300) as the host's `k`-th operation. `draws` is where
the random source stands: it lies outside the core and its bytes are not promised to repeat (R250; log 34). -/
def construct (k draws : Nat) (rom : List Byte) (shiftQuirk memAccessQuirk : Bool) : State :=
  if Config.romMax < rom.length then failedConstruct k draws
  else constructFrom { State.reset with draws := draws } rom shiftQuirk memAccessQuirk

/-! ## The operations on a constructed core; all but the queries do nothing on a stopped one (R254) -/

/-- A timer's decrement, floored at 0 (R243). -/
def countDown (t : Byte) : Byte := trunc8 (t.toNat - 1)

/-- `tick_timers()` (R243). -/
def tickTimers (s : State) : State :=
  if s.fault then s else { s with dt := countDown s.dt, st := countDown s.st }

/-- `consume_dirty_flag()` (R245): the flag as it was, and the state with it cleared; false on a stopped core. -/
def consumeDirtyFlag (s : State) : Bool × State :=
  if s.fault then (false, s) else (s.dirty, { s with dirty := false })

/-- `set_keys(flags)` with 16 flags by type (R246): the hardware binding. -/
def setKeys (flags : Vector Bool 16) (s : State) : State :=
  if s.fault then s else { s with keys := flags }

/-- `set_keys` of a software binding, which takes any length: a wrong one raises InputContractViolation (R246, R275;
log 19). -/
def setKeysChecked (flags : List Bool) (s : State) : State :=
  if s.fault then s
  else if h : flags.length = 16 then { s with keys := ⟨flags.toArray, by simpa using h⟩ }
  else s.latch .inputContractViolation

/-- `deliver_captured_key(key)` (R248): the key is 0 to 15 by type (C1, D12; log 12). -/
def deliverCapturedKey (key : Fin 16) (s : State) : State :=
  if s.fault then s
  else if s.waiting = false then s.latch .protocolViolation
  else { s with capturedKey := trunc8 key.val, keyValid := true }

/-! ## Queries: they change nothing; on a stopped core the answer to the host's `k`-th operation is a free value
(R254, U11; log 24) -/

/-- `read_display()` (R244): a snapshot of the grid. -/
def readDisplay (k : Nat) (s : State) : Display :=
  if s.fault then Config.unspecified _ k 0 else s.pix

/-- The grid as a linear copy, row-major: index `y * 64 + x` (R244, D23; log 21). -/
def linearDisplay (d : Display) : List Bool := d.toList.flatMap Vector.toList

/-- `is_waiting_for_key()` (R247). -/
def isWaitingForKey (k : Nat) (s : State) : Bool :=
  if s.fault then Config.unspecified _ k 0 else s.waiting

/-- `should_sound_tone()` (R249). -/
def shouldSoundTone (k : Nat) (s : State) : Bool :=
  if s.fault then Config.unspecified _ k 0 else decide (s.st.toNat > 0)

/-- The fault status (R251, R271): `FAULT` and the code of `FAULT_CAUSE`; specified always. -/
def faultStatus (s : State) : Bool × BitVec 3 := (s.fault, s.faultCause.code)

/-! ## The host's run (R240, R255) -/

/-- The operations on the core (R240), and the fault-status read (R251). -/
inductive HostOp where
  /-- R241 -/
  | construct (rom : List Byte) (shiftQuirk memAccessQuirk : Bool)
  /-- R242 -/
  | step
  /-- R243 -/
  | tickTimers
  /-- R244 -/
  | readDisplay
  /-- R245 -/
  | consumeDirtyFlag
  /-- R246, hardware binding -/
  | setKeys (flags : Vector Bool 16)
  /-- R246, R275, software binding -/
  | setKeysChecked (flags : List Bool)
  /-- R247 -/
  | isWaitingForKey
  /-- R248 -/
  | deliverCapturedKey (key : Fin 16)
  /-- R249 -/
  | shouldSoundTone
  /-- R251 -/
  | faultStatus
deriving DecidableEq, Repr

/-- What an operation returns (R240, R251). -/
inductive HostReply where
  /-- Nothing. -/
  | unit
  /-- A boolean: `consume_dirty_flag`, `is_waiting_for_key`, `should_sound_tone`. -/
  | flag (b : Bool)
  /-- The grid: `read_display`. -/
  | display (d : Display)
  /-- `FAULT` and the cause's code. -/
  | status (fault : Bool) (code : BitVec 3)
deriving DecidableEq, Repr

/-- The state after the step operation (R242). Every step of this machine answers a next state; the other two
outcomes, which no step gives, would leave the state. -/
def stepState (s : State) : State :=
  match step s with
  | .next t => t
  | .fault _ => s
  | .refused _ => s

/-- The host's `k`-th operation on the core: its reply and the state it leaves (R240). -/
def hostOp (k : Nat) (op : HostOp) (s : State) : HostReply × State :=
  match op with
  | .construct rom sq mq => (.unit, construct k s.draws rom sq mq)
  | .step => (.unit, stepState s)
  | .tickTimers => (.unit, tickTimers s)
  | .readDisplay => (.display (readDisplay k s), s)
  | .consumeDirtyFlag => (.flag (consumeDirtyFlag s).1, (consumeDirtyFlag s).2)
  | .setKeys flags => (.unit, setKeys flags s)
  | .setKeysChecked flags => (.unit, setKeysChecked flags s)
  | .isWaitingForKey => (.flag (isWaitingForKey k s), s)
  | .deliverCapturedKey key => (.unit, deliverCapturedKey key s)
  | .shouldSoundTone => (.flag (shouldSoundTone k s), s)
  | .faultStatus => (.status (faultStatus s).1 (faultStatus s).2, s)

/-- A run: the operations one after another, each atomic, in the order the host issues them (R78, R255); `k` numbers
the first. -/
def runOps : Nat → List HostOp → State → State
  | _, [], s => s
  | k, op :: ops, s => runOps (k + 1) ops (hostOp k op s).2

end Sys2Proof.Machine
end

