-- ==== Sys2Proof/Safety.lean ====
section
/-! DEFINITION. What claims are stated in: the machine's invariant (R45), a step that raises a condition, and which
parts of the state two states agree on. -/

namespace Sys2Proof.Machine

/-- `w` has the form `Fx0A` (R45, R205). -/
abbrev isKeyWait (w : InstrWord) : Prop := ∃ x : RegIdx, w = encode (.ldVxK x)

/-- Every live call-stack entry is the address of a `2nnn` that was fetched whole (R45). -/
abbrev State.LiveStackOk (s : State) : Prop :=
  ∀ k : Fin 16, k.val < s.sp.val → 512 ≤ s.stack[k.val].toNat ∧ s.stack[k.val].toNat ≤ 4094

/-- While the machine waits, the word at `PC` is an `Fx0A` (R45). -/
abbrev State.WaitsOnKeyWait (s : State) : Prop :=
  s.waiting = true → ∃ w ∈ fetchWord s.mem s.pc.toNat, isKeyWait w

/-- What R24, R35, R37 and R45 say of a machine that runs; the bounds of `V`, `I`, `SP`, `DT`, `ST` are in the types. -/
structure State.Legal (s : State) : Prop where
  /-- No fetch from the reserved region (R24). -/
  pcLow : 512 ≤ s.pc.toNat
  liveStack : s.LiveStackOk
  keyValidWaits : s.keyValid = true → s.waiting = true
  capturedKeyIsKey : s.keyValid = true → s.capturedKey.toNat < 16
  waitsOnKeyWait : s.WaitsOnKeyWait

/-- The invariant. The memory is canonical and the latch is of one piece, always; a machine that has not stopped is
legal. (R278: nothing else may be said of a stopped machine.) -/
structure State.Inv (s : State) : Prop where
  memWf : s.mem.wf = true
  latchOk : s.fault = true ↔ s.faultCause ≠ .none
  legal : s.fault = false → s.Legal

/-- The machine runs: no fatal condition has been raised (R38). -/
abbrev State.Running (s : State) : Prop := s.fault = false

/-- An instruction or a step raises the condition `c`: the state it leaves holds the latch. Nothing else is said of
that state (R278). -/
def Raises (r : Result) (c : Cause) : Prop := ∃ t, r = .next t ∧ t.fault = true ∧ t.faultCause = c

/-- A run of steps in which no fatal condition is raised. -/
def RunsSafely : Nat → State → Prop
  | 0, s => s.Running
  | n + 1, s => s.Running ∧ ∃ t, step s = .next t ∧ RunsSafely n t

/-- The parts of the state that a frame speaks of. -/
inductive Part where
  | regs | index | pc | stack | delay | sound | memory | pixels | dirty | keys | wait | quirks | latch | random
deriving DecidableEq, Repr

/-- Two states agree on a part. Memory is compared by what each address reads as. -/
def Same : Part → State → State → Prop
  | .regs, s, t => ∀ k, t.reg k = s.reg k
  | .index, s, t => t.i = s.i
  | .pc, s, t => t.pc = s.pc
  | .stack, s, t => t.sp = s.sp ∧ t.stack = s.stack
  | .delay, s, t => t.dt = s.dt
  | .sound, s, t => t.st = s.st
  | .memory, s, t => ∀ a, t.mem.readByte a = s.mem.readByte a
  | .pixels, s, t => ∀ x y, t.pix.lit x y = s.pix.lit x y
  | .dirty, s, t => t.dirty = s.dirty
  | .keys, s, t => t.keys = s.keys
  | .wait, s, t => t.waiting = s.waiting ∧ t.keyValid = s.keyValid ∧ t.capturedKey = s.capturedKey
  | .quirks, s, t => t.shiftQuirk = s.shiftQuirk ∧ t.memAccessQuirk = s.memAccessQuirk
  | .latch, s, t => t.fault = s.fault ∧ t.faultCause = s.faultCause
  | .random, s, t => t.draws = s.draws

/-- Nothing but the named parts changes. -/
def OnlyChanges (ps : List Part) (s t : State) : Prop := ∀ p, p ∉ ps → Same p s t

/-- No register but those named changes. -/
def RegsOnly (xs : List RegIdx) (s t : State) : Prop := ∀ k, k ∉ xs → t.reg k = s.reg k

/-- No byte of memory outside the `len` bytes from `a` changes. -/
def MemOnly (a len : Nat) (s t : State) : Prop :=
  ∀ b, (b < a ∨ a + len ≤ b) → t.mem.readByte b = s.mem.readByte b

/-- What address `a` holds, as a number, once bytes of the values `vs` have been stored from `I` on. -/
def byteAfterStore (s : State) (vs : List Nat) (a : Nat) : Nat :=
  if s.i.toNat ≤ a ∧ a < s.i.toNat + vs.length then vs.getD (a - s.i.toNat) 0 else (s.mem.readByte a).toNat

/-- Where an instruction stores, byte by byte: every byte of memory outside the three bytes of `Fx33` or the `x + 1`
bytes of `Fx55`, from the address their meanings store to, reads as before; so does all of memory for an instruction that
stores nothing (R66, R223, R224). -/
def StoresOnlyItsBytes (i : Instr) (s t : State) : Prop :=
  (∀ x, i = .ldB x → MemOnly (indexed s 0) 3 s t) ∧
  (∀ x, i = .storeRegs x → MemOnly (indexed s 0) (x.val + 1) s t) ∧
  ((∀ x, i ≠ .ldB x) → (∀ x, i ≠ .storeRegs x) → Same .memory s t)

/-- The stack entries an instruction leaves: all but `STACK[SP]` for `2nnn`, all for every other (R25, R26, R143). -/
def PushesOnlyItsEntry (i : Instr) (s t : State) : Prop :=
  ∀ k : Fin 16, (∀ nnn, i = .call nnn → k.val ≠ s.sp.val) → t.stack[k.val] = s.stack[k.val]

/-- The parts of the state an instruction may write when it raises nothing (R21, R22, R25, R31 to R36, R40, R66). -/
def writesParts : Instr → List Part
  | .sys _ => []
  | .cls => [.pc, .pixels, .dirty]
  | .ret => [.pc, .stack]
  | .jp _ => [.pc]
  | .call _ => [.pc, .stack]
  | .seImm _ _ => [.pc]
  | .sneImm _ _ => [.pc]
  | .seReg _ _ => [.pc]
  | .ldImm _ _ => [.pc, .regs]
  | .addImm _ _ => [.pc, .regs]
  | .ldReg _ _ => [.pc, .regs]
  | .orReg _ _ => [.pc, .regs]
  | .andReg _ _ => [.pc, .regs]
  | .xorReg _ _ => [.pc, .regs]
  | .addReg _ _ => [.pc, .regs]
  | .subReg _ _ => [.pc, .regs]
  | .shr _ _ => [.pc, .regs]
  | .subnReg _ _ => [.pc, .regs]
  | .shl _ _ => [.pc, .regs]
  | .sneReg _ _ => [.pc]
  | .ldI _ => [.pc, .index]
  | .jpV0 _ => [.pc]
  | .rnd _ _ => [.pc, .regs, .random]
  | .drw _ _ _ => [.pc, .regs, .pixels, .dirty]
  | .skp _ => [.pc]
  | .sknp _ => [.pc]
  | .ldVxDT _ => [.pc, .regs]
  | .ldVxK _ => [.pc, .regs, .wait]
  | .ldDTVx _ => [.pc, .delay]
  | .ldSTVx _ => [.pc, .sound]
  | .addI _ => [.pc, .index]
  | .ldF _ => [.pc, .index]
  | .ldB _ => [.pc, .memory]
  | .storeRegs _ => [.pc, .memory, .index]
  | .loadRegs _ => [.pc, .regs, .index]

/-- The registers from `V0` to `V[x]` (R225). -/
def regsUpTo (x : RegIdx) : List RegIdx := (List.finRange 16).filter fun k => k.val ≤ x.val

/-- The registers an instruction may write, `VF` as a side effect among them (R20, R21). -/
def destRegs : Instr → List RegIdx
  | .sys _ => []
  | .cls => []
  | .ret => []
  | .jp _ => []
  | .call _ => []
  | .seImm _ _ => []
  | .sneImm _ _ => []
  | .seReg _ _ => []
  | .ldImm x _ => [x]
  | .addImm x _ => [x]
  | .ldReg x _ => [x]
  | .orReg x _ => [x]
  | .andReg x _ => [x]
  | .xorReg x _ => [x]
  | .addReg x _ => [x, 15]
  | .subReg x _ => [x, 15]
  | .shr x _ => [x, 15]
  | .subnReg x _ => [x, 15]
  | .shl x _ => [x, 15]
  | .sneReg _ _ => []
  | .ldI _ => []
  | .jpV0 _ => []
  | .rnd x _ => [x]
  | .drw _ _ _ => [15]
  | .skp _ => []
  | .sknp _ => []
  | .ldVxDT x => [x]
  | .ldVxK x => [x]
  | .ldDTVx _ => []
  | .ldSTVx _ => []
  | .addI _ => []
  | .ldF _ => []
  | .ldB _ => []
  | .storeRegs _ => []
  | .loadRegs x => regsUpTo x

/-- The six instructions that write `VF` as a flag (R21). -/
def writesFlag : Instr → Bool
  | .sys _ => false
  | .cls => false
  | .ret => false
  | .jp _ => false
  | .call _ => false
  | .seImm _ _ => false
  | .sneImm _ _ => false
  | .seReg _ _ => false
  | .ldImm _ _ => false
  | .addImm _ _ => false
  | .ldReg _ _ => false
  | .orReg _ _ => false
  | .andReg _ _ => false
  | .xorReg _ _ => false
  | .addReg _ _ => true
  | .subReg _ _ => true
  | .shr _ _ => true
  | .subnReg _ _ => true
  | .shl _ _ => true
  | .sneReg _ _ => false
  | .ldI _ => false
  | .jpV0 _ => false
  | .rnd _ _ => false
  | .drw _ _ _ => true
  | .skp _ => false
  | .sknp _ => false
  | .ldVxDT _ => false
  | .ldVxK _ => false
  | .ldDTVx _ => false
  | .ldSTVx _ => false
  | .addI _ => false
  | .ldF _ => false
  | .ldB _ => false
  | .storeRegs _ => false
  | .loadRegs _ => false

/-- What the end of a step raises for a `next_pc` (R126; log 8). -/
def pcCondition (next : Nat) : Cause := if 4096 ≤ next then .outOfBounds else .none

/-- The condition an instruction raises on a running machine, `.none` if it raises none: the table of R272 to R274 with
the order of R276, in numbers. What comes first is first: the handler's checks as their rules write them, then the PC
update. -/
def conditionOf (i : Instr) (s : State) : Cause :=
  let fall := pcCondition (s.pc.toNat + 2)
  let skip := pcCondition (s.pc.toNat + 4)
  match i with
  | .sys _ => .invalidOpcode
  | .cls => fall
  | .ret =>
    if s.sp.val = 0 then .protocolViolation else pcCondition ((s.stack.toList.getD (s.sp.val - 1) 0).toNat + 2)
  | .jp nnn => if nnn.toNat < 512 then .outOfBounds else .none
  | .call nnn => if s.sp.val = 16 then .protocolViolation else if nnn.toNat < 512 then .outOfBounds else .none
  | .seImm x kk => if s.reg x = kk then skip else fall
  | .sneImm x kk => if s.reg x = kk then fall else skip
  | .seReg x y => if s.reg x = s.reg y then skip else fall
  | .ldImm _ _ => fall
  | .addImm _ _ => fall
  | .ldReg _ _ => fall
  | .orReg _ _ => fall
  | .andReg _ _ => fall
  | .xorReg _ _ => fall
  | .addReg _ _ => fall
  | .subReg _ _ => fall
  | .shr _ _ => fall
  | .subnReg _ _ => fall
  | .shl _ _ => fall
  | .sneReg x y => if s.reg x = s.reg y then fall else skip
  | .ldI _ => fall
  | .jpV0 nnn =>
    if nnn.toNat + (s.reg 0).toNat < 512 ∨ 4096 ≤ nnn.toNat + (s.reg 0).toNat then .outOfBounds else .none
  | .rnd _ _ => fall
  | .drw _ _ n => if n.val ≠ 0 ∧ 4096 ≤ s.i.toNat + n.val - 1 then .outOfBounds else fall
  | .skp x =>
    if 16 ≤ (s.reg x).toNat then .outOfBounds
    else if s.keys.toList.getD (s.reg x).toNat false = true then skip else fall
  | .sknp x =>
    if 16 ≤ (s.reg x).toNat then .outOfBounds
    else if s.keys.toList.getD (s.reg x).toNat false = true then fall else skip
  | .ldVxDT _ => fall
  | .ldVxK _ => if s.waiting = true ∧ s.keyValid = true then fall else .none
  | .ldDTVx _ => fall
  | .ldSTVx _ => fall
  | .addI x => if 4096 ≤ s.i.toNat + (s.reg x).toNat then .outOfBounds else fall
  | .ldF _ => fall
  | .ldB _ => if 4096 ≤ s.i.toNat + 2 then .outOfBounds else fall
  | .storeRegs x => if 4096 ≤ s.i.toNat + x.val + (if s.memAccessQuirk then 1 else 0) then .outOfBounds else fall
  | .loadRegs x => if 4096 ≤ s.i.toNat + x.val + (if s.memAccessQuirk then 1 else 0) then .outOfBounds else fall

/-- The sprite of `n` rows at address `a`, drawn with origin `(ox, oy)`, has a 1 bit that falls on the pixel `(x, y)` of
the grid: row `y - oy`, column `x - ox`, bit 7 leftmost; what lies off the grid falls on no pixel (R191, R192). -/
def spriteOn (m : Memory) (a ox oy n x y : Nat) : Prop :=
  x < 64 ∧ y < 32 ∧ ox ≤ x ∧ x < ox + 8 ∧ oy ≤ y ∧ y < oy + n ∧
    (m.readByte (a + (y - oy))).getLsbD (7 - (x - ox)) = true

end Sys2Proof.Machine
end

