-- ==== Sys2Proof/Certificates/Slice0/Obligations.lean ====
section
/-! DEFINITION. The statements for the provers. Each docstring names the rules it formalises and the log entries
(notes/assumptions) of the choices it rests on. `Raises r c` says that `r` is a next state whose latch holds `c`
(the latch is the spec's decision D8, log 1). -/

open Sys2Proof Sys2Proof.Machine

/-! ## Decoder and encoder -/

/-- R95, R97; strictness is D2 (log 3), row 1 is D1 (log 2). Every instruction that some word encodes decodes to
itself, with every operand at every value. -/
def Obligations.DecodeOfEncodeIsIdentity : Prop :=
  ∀ i : Instr, i.wellFormed = true → decodeWord (encode i) = .ok i

/-- R95, R97; D2 (log 3). A word that decodes has no bit the instruction does not hold, and the decoder gives only
well-formed instructions. -/
def Obligations.EncodeOfDecodeIsIdentity : Prop :=
  ∀ (w : InstrWord) (i : Instr), decodeWord w = .ok i → encode i = w ∧ i.wellFormed = true

/-- R99 (its rows but `0nnn`, which is the row SYS); D2 (log 3). A word has no handler exactly if it is one of the listed
ones. -/
def Obligations.NoHandlerExactlyForIllegalWords : Prop :=
  ∀ w : InstrWord,
    (∃ e, decodeWord w = .error e) ↔
      (famOf w = 0x5 ∧ nOf w ≠ 0) ∨
      (famOf w = 0x8 ∧ (nOf w).val ∈ [0x8, 0x9, 0xA, 0xB, 0xC, 0xD, 0xF]) ∨
      (famOf w = 0x9 ∧ nOf w ≠ 0) ∨
      (famOf w = 0xE ∧ kkOf w ∉ [0x9E, 0xA1]) ∨
      (famOf w = 0xF ∧ kkOf w ∉ [0x07, 0x0A, 0x15, 0x18, 0x1E, 0x29, 0x33, 0x55, 0x65])

/-- R91. The fields as numbers, of the word and of its two bytes. -/
def Obligations.FieldsAreBitSlicesOfTheWord : Prop :=
  ∀ (w : InstrWord) (b0 b1 : Byte), w = wordOfBytes b0 b1 →
    (famOf w).toNat = w.toNat / 4096 ∧ (xOf w).val = w.toNat / 256 % 16 ∧ (yOf w).val = w.toNat / 16 % 16 ∧
    (nnnOf w).toNat = w.toNat % 4096 ∧ (kkOf w).toNat = w.toNat % 256 ∧ (nOf w).val = w.toNat % 16 ∧
    (nnnOf w).toNat = (xOf w).val * 256 + (kkOf w).toNat ∧ (kkOf w).toNat = (yOf w).val * 16 + (nOf w).val ∧
    (famOf w).toNat = b0.toNat / 16 ∧ (xOf w).val = b0.toNat % 16 ∧ (yOf w).val = b1.toNat / 16 ∧
    (nOf w).val = b1.toNat % 16 ∧ (kkOf w).toNat = b1.toNat ∧ (nnnOf w).toNat = b0.toNat % 16 * 256 + b1.toNat

/-- R95 (the row SYS, word 0x0123: D1 and general knowledge, log 2). Words written out from the map's patterns: one of
each format and each sub-dispatched family. -/
def Obligations.SampleWordsDecode : Prop :=
  decodeWord 0x00E0#16 = .ok .cls ∧ decodeWord 0x00EE#16 = .ok .ret ∧ decodeWord 0x0123#16 = .ok (.sys 0x123) ∧
  decodeWord 0x1ABC#16 = .ok (.jp 0xABC) ∧ decodeWord 0x6A02#16 = .ok (.ldImm 0xA 0x02) ∧
  decodeWord 0x8AB4#16 = .ok (.addReg 0xA 0xB) ∧ decodeWord 0xD7A5#16 = .ok (.drw 0x7 0xA 5) ∧
  decodeWord 0xE19E#16 = .ok (.skp 1) ∧ decodeWord 0xF265#16 = .ok (.loadRegs 2)

/-- R96 and the parameter DECODE_STRICT (D2, log 3; the row SYS: D1, log 2). What either setting of the parameter reads
in families 0, 5 and 9, for every word; that no other family depends on it; and that the lenient decoder reads every word
the strict one reads, to the same instruction but for words of the row SYS that end in E0 or EE. -/
def Obligations.LenientDecodeExtendsStrict : Prop :=
  ∀ w : InstrWord,
    (famOf w = 0x0 →
      decodeWith false w =
        .ok (if kkOf w = 0xE0 then .cls else if kkOf w = 0xEE then .ret else .sys (nnnOf w)) ∧
      decodeWith true w = .ok (if w = 0x00E0 then .cls else if w = 0x00EE then .ret else .sys (nnnOf w))) ∧
    (famOf w = 0x5 →
      decodeWith false w = .ok (.seReg (xOf w) (yOf w)) ∧
      decodeWith true w = if nOf w = 0 then .ok (.seReg (xOf w) (yOf w)) else .error .family5) ∧
    (famOf w = 0x9 →
      decodeWith false w = .ok (.sneReg (xOf w) (yOf w)) ∧
      decodeWith true w = if nOf w = 0 then .ok (.sneReg (xOf w) (yOf w)) else .error .family9) ∧
    (famOf w ≠ 0x0 → famOf w ≠ 0x5 → famOf w ≠ 0x9 → decodeWith false w = decodeWith true w) ∧
    (∀ i, decodeWith true w = .ok i →
      decodeWith false w = .ok i ∨ (i = .sys (nnnOf w) ∧ (kkOf w = 0xE0 ∨ kkOf w = 0xEE)))

/-! ## The step cycle -/

/-- R120, R121, R122, R63: the step of a running machine fetches the big-endian word at PC and runs the instruction it
decodes to. -/
def Obligations.StepRunsDecodedInstruction : Prop :=
  ∀ (s : State) (w : InstrWord) (i : Instr), s.Running → s.pc.toNat + 1 < 4096 →
    w.toNat = (s.mem.readByte s.pc.toNat).toNat * 256 + (s.mem.readByte (s.pc.toNat + 1)).toNat →
    decodeWord w = .ok i → step s = exec i s

/-- R65, R121, R122, R273 (the latch: D8, log 1; alignment: D16, log 16). What stops a step before it executes: the last
address of memory, and a word without a handler. -/
def Obligations.StepRaisesAtFetchAndDecode : Prop :=
  (∀ s : State, s.Running → s.pc.toNat = 4095 → Raises (step s) .outOfBounds) ∧
  (∀ (s : State) (w : InstrWord) (e : Illegal), s.Running → fetchWord s.mem s.pc.toNat = some w →
    decodeWord w = .error e → Raises (step s) .invalidOpcode)

/-- R128, R254 (D8, log 1). On a stopped machine a step and every other operation of the host but `construct` change
nothing. -/
def Obligations.StoppedMachineIsLeftAlone : Prop :=
  ∀ (k : Nat) (op : HostOp) (s : State), s.fault = true → (∀ rom sq mq, op ≠ .construct rom sq mq) →
    step s = .next s ∧ (hostOp k op s).2 = s

/-- R127, R270 (D8, log 1). Every instruction and every step ends in a next state: the machine has no other way to
stop than its latch. -/
def Obligations.EveryStepAnswersNextState : Prop :=
  (∀ (i : Instr) (s : State), ∃ t, exec i s = .next t) ∧ (∀ s : State, ∃ t, step s = .next t)

/-- R127, R128, R279, R301 (D8, log 1); R275. A step of a running machine leaves it running, or latches one of three
causes (the fourth is `set_keys`' own) and thereby stops it for every later operation but `construct`. -/
def Obligations.RaisedConditionStopsTheMachine : Prop :=
  ∀ s t : State, s.Running → step s = .next t →
    t.Running ∨
      (t.fault = true ∧ t.faultCause ∈ [Cause.outOfBounds, .invalidOpcode, .protocolViolation] ∧ step t = .next t ∧
        ∀ (k : Nat) (op : HostOp), (∀ rom sq mq, op ≠ .construct rom sq mq) → (hostOp k op t).2 = t)

/-- R126, R146 to R149, R205, R270, R272, R273, R274, R276 (the latch: D8, log 1; row SYS: D1, log 2; KEY_VALID: D10, log 10;
D7, D11, D13, D14, D15, D16, D17, log 8, 11, 13, 14, 15, 16, 17; V0 in JP V0: G2, log 28; the senses of the skips: G4, log 30;
the sub-selectors that name family 8: G5, log 31). Every instruction on every running machine raises exactly the condition
the tables give, and where they give none it goes on: nothing else stops it. -/
def Obligations.ConditionsRaisedExactlyAtTheirSites : Prop :=
  ∀ (i : Instr) (s : State), s.Running →
    ∃ t, exec i s = .next t ∧
      (conditionOf i s = .none → t.Running) ∧
      (conditionOf i s ≠ .none → t.fault = true ∧ t.faultCause = conditionOf i s)

/-- R63, R252, and the model's loading of one word (log 26): a word placed at PC is the very next instruction run. -/
def Obligations.PlacedWordIsRunNext : Prop :=
  ∀ (s : State) (w : Nat) (i : Instr), s.pc.toNat + 1 < 4096 → decodeTableWord 16 w = some i →
    step (s.withFetchWord 16 w) = exec i (s.withFetchWord 16 w)

/-! ## Invariants -/

/-- R24, R35, R37, R45 (inferences the spec marks as derived; KEY_VALID: D10, log 10), FAULT set exactly if a cause is
latched (R38, R271: D8, D9, log 1, 9), and the model's canonical memory (log 40): every step keeps the invariant, from
every state that meets it. -/
def Obligations.StepKeepsInvariant : Prop :=
  ∀ s t : State, s.Inv → step s = .next t → t.Inv

/-- R43, R45: the state after reset meets the invariant. -/
def Obligations.ResetMeetsInvariant : Prop := State.reset.Inv

/-- R45, R240, R255: every operation of the host keeps the invariant, whatever its arguments and its number. A construct
that fails does so by the model's choice of what it leaves (FAULT with OutOfBounds, the free memory in canonical form:
D24, log 22); the latch: D8, log 1; KEY_VALID: D10, log 10; the canonical form: log 40. -/
def Obligations.HostOperationsKeepInvariant : Prop :=
  ∀ (k : Nat) (op : HostOp) (s : State), s.Inv → (hostOp k op s).2.Inv

/-- R24, R45, R255 (the latch: D8, log 1; KEY_VALID: D10, log 10): in every run of the host, with any ROM and any
interleaving, a machine that has not stopped has its PC in 512 to 4095, live stack entries in 512 to 4094, and waits
only on an `Fx0A`. -/
def Obligations.EveryHostRunStaysLegal : Prop :=
  ∀ (k : Nat) (ops : List HostOp), (runOps k ops State.reset).Running → (runOps k ops State.reset).Legal

/-! ## Rules of the whole machine -/

/-- R21, R22, R25, R26, R27, R28, R31 to R36, R40, R66 (a pop keeps its entry: D25, log 23): an instruction that raises
nothing changes no part of the state but those the spec says it writes, no register but its destinations, no byte of
memory but those it stores to (their address is the meanings' own `indexed s 0`), and no stack entry but the one a CALL
pushes. -/
def Obligations.InstructionsChangeOnlyWhatTheyWrite : Prop :=
  ∀ (i : Instr) (s t : State), exec i s = .next t → t.Running →
    OnlyChanges (writesParts i) s t ∧ RegsOnly (destRegs i) s t ∧ StoresOnlyItsBytes i s t ∧ PushesOnlyItsEntry i s t

/-- R21 (for x = 15 by D3, log 4): the six flag-writing instructions leave 0 or 1 in VF, and no other instruction
changes VF unless it is a destination it names. -/
def Obligations.FlagRegisterWrittenOnlyAsFlag : Prop :=
  ∀ (i : Instr) (s t : State), exec i s = .next t → t.Running →
    (writesFlag i = true → t.reg 15 = 0 ∨ t.reg 15 = 1) ∧
    (writesFlag i = false → 15 ∉ destRegs i → t.reg 15 = s.reg 15)

/-- R33: no instruction but Ex9E and ExA1 reads the key flags (Fx0A does not): under other flags it does the same and
leaves those. Where the instruction raises, that the rest of the two stopped states agrees is the model's choice: R127, D8,
log 1 (R278 promises nothing of it). -/
def Obligations.KeysReadOnlyByKeySkips : Prop :=
  ∀ (i : Instr) (s t : State) (ks : Vector Bool 16), (∀ x, i ≠ .skp x) → (∀ x, i ≠ .sknp x) →
    exec i s = .next t → exec i { s with keys := ks } = .next { t with keys := ks }

/-- R28, R32, R42: no instruction reads ST or DIRTY. What differs in them before differs in nothing else after. Where the
instruction raises, that the rest of the two stopped states agrees is the model's choice: R127, D8, log 1 (R278 promises
nothing of it). -/
def Obligations.SoundAndDirtyAreUnobservable : Prop :=
  ∀ (i : Instr) (s t : State) (b : Byte) (d : Bool), exec i s = .next t →
    ∃ t', exec i { s with st := b, dirty := d } = .next t' ∧ { t' with st := t.st, dirty := t.dirty } = t

/-- R26, R42 (a pop keeps its entry: D25, log 23): what stands in the dead entries of the stack (index SP and above)
changes nothing but dead entries. Where the instruction raises, that the rest of the two stopped states agrees is the
model's choice: R127, D8, log 1 (R278 promises nothing of it). -/
def Obligations.DeadStackEntriesAreUnobservable : Prop :=
  ∀ (i : Instr) (s t : State) (st' : Vector Addr 16),
    (∀ k : Fin 16, k.val < s.sp.val → st'[k.val] = s.stack[k.val]) → exec i s = .next t →
    ∃ t', exec i { s with stack := st' } = .next t' ∧ { t' with stack := t.stack } = t ∧
      ∀ k : Fin 16, k.val < t.sp.val → t'.stack[k.val] = t.stack[k.val]

/-- R73, R243 to R249, R251, R240 (the software binding of set_keys: D20, log 19; the latch, that an operation which raises
changes nothing else, and that a stopped machine is left alone: D8, R254, R277, log 1; consume_dirty_flag there: log 24;
KEY_VALID: D10, log 10): what the host's operations on a constructed core can touch; none reaches memory, registers, I, PC
or the stack. -/
def Obligations.HostOperationsTouchOnlyTheirOwnState : Prop :=
  ∀ (k : Nat) (s : State),
    OnlyChanges [.delay, .sound] s (hostOp k .tickTimers s).2 ∧
    OnlyChanges [.dirty] s (hostOp k .consumeDirtyFlag s).2 ∧
    (∀ flags, OnlyChanges [.keys] s (hostOp k (.setKeys flags) s).2) ∧
    (∀ flags, OnlyChanges [.keys, .latch] s (hostOp k (.setKeysChecked flags) s).2) ∧
    (∀ key, OnlyChanges [.wait, .latch] s (hostOp k (.deliverCapturedKey key) s).2) ∧
    (∀ op ∈ [HostOp.readDisplay, .isWaitingForKey, .shouldSoundTone, .faultStatus], (hostOp k op s).2 = s)

/-! ## Control flow -/

/-- R140 (D1, log 2; the latch: D8, log 1): SYS raises InvalidOpcode, always. -/
def Obligations.SysRaisesInvalidOpcode : Prop :=
  ∀ (nnn : Addr) (s : State), Raises (exec (.sys nnn) s) .invalidOpcode

/-- R141, R142 (the latch: D8, log 1; odd targets: D16, log 16): JP lands exactly on its target and changes nothing
else; a target below 512 raises OutOfBounds. -/
def Obligations.JpLandsOnTarget : Prop :=
  ∀ (nnn : Addr) (s : State),
    (512 ≤ nnn.toNat → ∃ t, exec (.jp nnn) s = .next t ∧ t.pc = nnn ∧ OnlyChanges [.pc] s t) ∧
    (nnn.toNat < 512 → Raises (exec (.jp nnn) s) .outOfBounds)

/-- R141, R144 (V0 as the offset: G2, log 28; the latch: D8, log 1): the check is on the unbounded sum. -/
def Obligations.JpV0LandsOnSum : Prop :=
  ∀ (nnn : Addr) (s : State),
    (512 ≤ nnn.toNat + (s.reg 0).toNat → nnn.toNat + (s.reg 0).toNat < 4096 →
      ∃ t, exec (.jpV0 nnn) s = .next t ∧ t.pc.toNat = nnn.toNat + (s.reg 0).toNat ∧ OnlyChanges [.pc] s t) ∧
    (nnn.toNat + (s.reg 0).toNat < 512 ∨ 4096 ≤ nnn.toNat + (s.reg 0).toNat →
      Raises (exec (.jpV0 nnn) s) .outOfBounds)

/-- R143, R150, R276 (order of the checks: D17, log 17; the latch: D8, log 1): CALL pushes its own address. -/
def Obligations.CallPushesCallSite : Prop :=
  ∀ (nnn : Addr) (s : State),
    (∀ h : s.sp.val < 16, 512 ≤ nnn.toNat →
      ∃ t, exec (.call nnn) s = .next t ∧ t.pc = nnn ∧ t.sp.val = s.sp.val + 1 ∧ t.stack[s.sp.val] = s.pc ∧
        (∀ k : Fin 16, k.val ≠ s.sp.val → t.stack[k.val] = s.stack[k.val]) ∧ OnlyChanges [.pc, .stack] s t) ∧
    (s.sp.val = 16 → Raises (exec (.call nnn) s) .protocolViolation) ∧
    (s.sp.val < 16 → nnn.toNat < 512 → Raises (exec (.call nnn) s) .outOfBounds)

/-- R145, R126, R150 (D7, log 8; the latch: D8, log 1): RET resumes after the call site on top of the stack. -/
def Obligations.RetResumesAfterCallSite : Prop :=
  ∀ s : State,
    (∀ h : 0 < s.sp.val, (s.stack[s.sp.val - 1]).toNat + 2 < 4096 →
      ∃ t, exec .ret s = .next t ∧ t.pc.toNat = (s.stack[s.sp.val - 1]).toNat + 2 ∧ t.sp.val + 1 = s.sp.val ∧
        t.stack = s.stack ∧ OnlyChanges [.pc, .stack] s t) ∧
    (s.sp.val = 0 → Raises (exec .ret s) .protocolViolation) ∧
    (∀ h : 0 < s.sp.val, 4096 ≤ (s.stack[s.sp.val - 1]).toNat + 2 → Raises (exec .ret s) .outOfBounds)

/-- R143, R145 (the document's S2): after a CALL, a RET with the stack as the CALL left it resumes at the instruction
after the CALL with SP as it was. -/
def Obligations.CallThenRetRoundTrip : Prop :=
  ∀ (nnn : Addr) (s : State), s.sp.val < 16 → 512 ≤ nnn.toNat → s.pc.toNat + 2 < 4096 →
    ∃ t, exec (.call nnn) s = .next t ∧
      ∀ u : State, u.sp = t.sp → u.stack = t.stack →
        ∃ r, exec .ret u = .next r ∧ r.pc.toNat = s.pc.toNat + 2 ∧ r.sp = s.sp

/-- R125, R126, R146, R147 (senses: G4, log 30; D7, log 8; the latch: D8, log 1): SE and SNE with a byte. -/
def Obligations.SkipsOnImmediate : Prop :=
  ∀ (x : RegIdx) (kk : Byte) (s : State) (i : Instr) (skip : Bool),
    (i = .seImm x kk ∧ (skip = true ↔ s.reg x = kk)) ∨ (i = .sneImm x kk ∧ (skip = true ↔ s.reg x ≠ kk)) →
    (s.pc.toNat + (if skip then 4 else 2) < 4096 →
      ∃ t, exec i s = .next t ∧ t.pc.toNat = s.pc.toNat + (if skip then 4 else 2) ∧ OnlyChanges [.pc] s t) ∧
    (4096 ≤ s.pc.toNat + (if skip then 4 else 2) → Raises (exec i s) .outOfBounds)

/-- R125, R126, R148, R149 (senses: G4, log 30; D7, log 8; the latch: D8, log 1): SE and SNE with a register. -/
def Obligations.SkipsOnRegister : Prop :=
  ∀ (x y : RegIdx) (s : State) (i : Instr) (skip : Bool),
    (i = .seReg x y ∧ (skip = true ↔ s.reg x = s.reg y)) ∨ (i = .sneReg x y ∧ (skip = true ↔ s.reg x ≠ s.reg y)) →
    (s.pc.toNat + (if skip then 4 else 2) < 4096 →
      ∃ t, exec i s = .next t ∧ t.pc.toNat = s.pc.toNat + (if skip then 4 else 2) ∧ OnlyChanges [.pc] s t) ∧
    (4096 ≤ s.pc.toNat + (if skip then 4 else 2) → Raises (exec i s) .outOfBounds)

/-- R200, R201, R33, R125, R126 (index above 15: D11, log 11; D7, log 8; the latch: D8, log 1): SKP and SKNP. -/
def Obligations.SkipsOnKey : Prop :=
  ∀ (x : RegIdx) (s : State) (i : Instr) (down : Bool),
    (i = .skp x ∧ down = true) ∨ (i = .sknp x ∧ down = false) →
    (∀ h : (s.reg x).toNat < 16, s.pc.toNat + (if s.keys[(s.reg x).toNat] = down then 4 else 2) < 4096 →
      ∃ t, exec i s = .next t ∧ t.pc.toNat = s.pc.toNat + (if s.keys[(s.reg x).toNat] = down then 4 else 2) ∧
        OnlyChanges [.pc] s t) ∧
    (∀ h : (s.reg x).toNat < 16, 4096 ≤ s.pc.toNat + (if s.keys[(s.reg x).toNat] = down then 4 else 2) →
      Raises (exec i s) .outOfBounds) ∧
    (16 ≤ (s.reg x).toNat → Raises (exec i s) .outOfBounds)

/-- R142, R314 (marked derived): a machine whose PC is at a jump to itself is left unchanged by a step. -/
def Obligations.JumpToSelfChangesNothing : Prop :=
  ∀ s : State, s.Running → 512 ≤ s.pc.toNat → fetchWord s.mem s.pc.toNat = some (encode (.jp s.pc)) → step s = .next s

/-! ## Load, arithmetic, logic, shift, random -/

/-- R161, R162, R160 (which derives the wrap): `Vx = kk`, and `Vx = (Vx + kk) mod 256` without a flag; VF is written only
as the destination. -/
def Obligations.LoadAndAddImmediate : Prop :=
  ∀ (x : RegIdx) (kk : Byte) (s : State), s.pc.toNat + 2 < 4096 →
    (∃ t, exec (.ldImm x kk) s = .next t ∧ t.reg x = kk ∧ t.pc.toNat = s.pc.toNat + 2 ∧
      RegsOnly [x] s t ∧ OnlyChanges [.pc, .regs] s t) ∧
    (∃ t, exec (.addImm x kk) s = .next t ∧ (t.reg x).toNat = ((s.reg x).toNat + kk.toNat) % 256 ∧
      t.pc.toNat = s.pc.toNat + 2 ∧ RegsOnly [x] s t ∧ OnlyChanges [.pc, .regs] s t)

/-- R163, R164, R165, R166 (which sub-selector is which: G5, log 31): direct register updates, bit by bit, no flag. -/
def Obligations.RegisterCopyAndLogic : Prop :=
  ∀ (x y : RegIdx) (s : State) (i : Instr) (f : Bool → Bool → Bool),
    (i = .ldReg x y ∧ f = fun _ b => b) ∨ (i = .orReg x y ∧ f = fun a b => a || b) ∨
      (i = .andReg x y ∧ f = fun a b => a && b) ∨ (i = .xorReg x y ∧ f = fun a b => a != b) →
    s.pc.toNat + 2 < 4096 →
    ∃ t, exec i s = .next t ∧
      (∀ k, k < 8 → (t.reg x).getLsbD k = f ((s.reg x).getLsbD k) ((s.reg y).getLsbD k)) ∧
      t.pc.toNat = s.pc.toNat + 2 ∧ RegsOnly [x] s t ∧ OnlyChanges [.pc, .regs] s t

/-- R160, R167, R129, R130 (flag last for x = 15: D3, log 4): ADD with carry out. -/
def Obligations.AddSetsCarry : Prop :=
  ∀ (x y : RegIdx) (s : State), s.pc.toNat + 2 < 4096 →
    ∃ t, exec (.addReg x y) s = .next t ∧
      (x ≠ 15 → (t.reg x).toNat = ((s.reg x).toNat + (s.reg y).toNat) % 256) ∧
      t.reg 15 = (if (s.reg x).toNat + (s.reg y).toNat > 255 then 1 else 0) ∧
      t.pc.toNat = s.pc.toNat + 2 ∧ RegsOnly [x, 15] s t ∧ OnlyChanges [.pc, .regs] s t

/-- R160, R168, R170, R129, R130 (flag last for x = 15: D3, log 4; sub-selectors: G5, log 31): SUB and SUBN with the NOT
borrow. -/
def Obligations.SubtractSetsNotBorrow : Prop :=
  ∀ (x y : RegIdx) (s : State) (i : Instr) (minuend subtrahend : Nat),
    (i = .subReg x y ∧ minuend = (s.reg x).toNat ∧ subtrahend = (s.reg y).toNat) ∨
      (i = .subnReg x y ∧ minuend = (s.reg y).toNat ∧ subtrahend = (s.reg x).toNat) →
    s.pc.toNat + 2 < 4096 →
    ∃ t, exec i s = .next t ∧
      (x ≠ 15 → (t.reg x).toNat = if subtrahend ≤ minuend then minuend - subtrahend else minuend + 256 - subtrahend) ∧
      t.reg 15 = (if subtrahend ≤ minuend then 1 else 0) ∧
      t.pc.toNat = s.pc.toNat + 2 ∧ RegsOnly [x, 15] s t ∧ OnlyChanges [.pc, .regs] s t

/-- R160, R169, R171, R36, R129, R130 (polarity: D18, log 18; flag last for x = 15: D3, log 4): the shifts by one, of Vy
under the legacy quirk and of Vx otherwise. -/
def Obligations.ShiftsPutTheBitOutInFlag : Prop :=
  ∀ (x y : RegIdx) (s : State) (src : Byte), src = (if s.shiftQuirk then s.reg y else s.reg x) →
    s.pc.toNat + 2 < 4096 →
    (∃ t, exec (.shr x y) s = .next t ∧ (x ≠ 15 → (t.reg x).toNat = src.toNat / 2) ∧
      (t.reg 15).toNat = src.toNat % 2 ∧ t.pc.toNat = s.pc.toNat + 2 ∧ RegsOnly [x, 15] s t ∧
      OnlyChanges [.pc, .regs] s t) ∧
    (∃ t, exec (.shl x y) s = .next t ∧ (x ≠ 15 → (t.reg x).toNat = src.toNat * 2 % 256) ∧
      (t.reg 15).toNat = src.toNat / 128 ∧ t.pc.toNat = s.pc.toNat + 2 ∧ RegsOnly [x, 15] s t ∧
      OnlyChanges [.pc, .regs] s t)

/-- R172, R250 (the draw is a free value, picked by the model's own counter: D21, log 20): each execution takes the
next byte of the random source and masks it; a bit that is 0 in `kk` is 0 in the result whatever the draw. -/
def Obligations.RandomIsOneFreshMaskedDraw : Prop :=
  ∀ (x : RegIdx) (kk : Byte) (s : State), s.pc.toNat + 2 < 4096 →
    ∃ t, exec (.rnd x kk) s = .next t ∧ t.reg x = Config.randomByte s.draws &&& kk ∧ t.draws = s.draws + 1 ∧
      (∀ k, kk.getLsbD k = false → (t.reg x).getLsbD k = false) ∧
      t.pc.toNat = s.pc.toNat + 2 ∧ RegsOnly [x] s t ∧ OnlyChanges [.pc, .regs, .random] s t

/-! ## Display -/

/-- R190: CLS leaves all 2048 pixels false and sets DIRTY. -/
def Obligations.ClearBlanksDisplay : Prop :=
  ∀ s : State, s.pc.toNat + 2 < 4096 →
    ∃ t, exec .cls s = .next t ∧ (∀ x y, t.pix.lit x y = false) ∧ t.dirty = true ∧ t.pc.toNat = s.pc.toNat + 2 ∧
      OnlyChanges [.pc, .pixels, .dirty] s t

/-- R191, R192, R31 (bit order and orientation: D23, G7, log 21; n = 0: D14, log 14; the latch: D8, log 1): DRW turns over
exactly the pixels the sprite's 1 bits fall on, from the wrapped origin, clipped at the edges; VF tells whether a lit one
was among them; DIRTY is set; a range that leaves memory raises OutOfBounds. -/
def Obligations.DrawXorsClippedSprite : Prop :=
  ∀ (x y : RegIdx) (n : Fin 16) (s : State),
    ((n = 0 ∨ s.i.toNat + n.val - 1 < 4096) → s.pc.toNat + 2 < 4096 →
      ∃ t, exec (.drw x y n) s = .next t ∧
        (∀ px py, t.pix.lit px py = true ↔
          ¬(s.pix.lit px py = true ↔
            spriteOn s.mem s.i.toNat ((s.reg x).toNat % 64) ((s.reg y).toNat % 32) n.val px py)) ∧
        (t.reg 15 = 1 ∨ t.reg 15 = 0) ∧
        (t.reg 15 = 1 ↔ ∃ px py, s.pix.lit px py = true ∧ t.pix.lit px py = false) ∧
        t.dirty = true ∧ t.pc.toNat = s.pc.toNat + 2 ∧ RegsOnly [15] s t ∧
        OnlyChanges [.pc, .regs, .pixels, .dirty] s t) ∧
    (n ≠ 0 → 4096 ≤ s.i.toNat + n.val - 1 → Raises (exec (.drw x y n) s) .outOfBounds)

/-- R191 (its corner case, read as its pseudocode has it: log 38; n = 0: D14, log 14; x and y are not VF): drawing the
same sprite twice at the same place restores the display, and the second draw collides iff the sprite has a visible 1
bit on a pixel the first draw lit. -/
def Obligations.DrawingTwiceRestoresDisplay : Prop :=
  ∀ (x y : RegIdx) (n : Fin 16) (s : State), x ≠ 15 → y ≠ 15 → (n = 0 ∨ s.i.toNat + n.val - 1 < 4096) →
    s.pc.toNat + 4 < 4096 →
    ∃ t u, exec (.drw x y n) s = .next t ∧ exec (.drw x y n) t = .next u ∧
      (∀ px py, u.pix.lit px py = s.pix.lit px py) ∧
      (u.reg 15 = 1 ↔ ∃ px py, s.pix.lit px py = false ∧ t.pix.lit px py = true)

/-! ## Keypad and timers -/

/-- R202, R203, R204 (the pairing: G3, log 29): the timer copies. -/
def Obligations.TimerCopies : Prop :=
  ∀ (x : RegIdx) (s : State), s.pc.toNat + 2 < 4096 →
    (∃ t, exec (.ldVxDT x) s = .next t ∧ t.reg x = s.dt ∧ t.pc.toNat = s.pc.toNat + 2 ∧ RegsOnly [x] s t ∧
      OnlyChanges [.pc, .regs] s t) ∧
    (∃ t, exec (.ldDTVx x) s = .next t ∧ t.dt = s.reg x ∧ t.pc.toNat = s.pc.toNat + 2 ∧
      OnlyChanges [.pc, .delay] s t) ∧
    (∃ t, exec (.ldSTVx x) s = .next t ∧ t.st = s.reg x ∧ t.pc.toNat = s.pc.toNat + 2 ∧
      OnlyChanges [.pc, .sound] s t)

/-- R205 (KEY_VALID: D10, log 10; CAPTURED_KEY kept when the wait ends: log 32): the three ways `Fx0A` executes. -/
def Obligations.KeyWaitStateMachine : Prop :=
  ∀ (x : RegIdx) (s : State),
    (s.waiting = false →
      ∃ t, exec (.ldVxK x) s = .next t ∧ t.waiting = true ∧ t.keyValid = false ∧ t.capturedKey = s.capturedKey ∧
        OnlyChanges [.wait] s t) ∧
    (s.waiting = true → s.keyValid = false → exec (.ldVxK x) s = .next s) ∧
    (s.waiting = true → s.keyValid = true → s.pc.toNat + 2 < 4096 →
      ∃ t, exec (.ldVxK x) s = .next t ∧ t.reg x = s.capturedKey ∧ t.waiting = false ∧ t.keyValid = false ∧
        t.capturedKey = s.capturedKey ∧ t.pc.toNat = s.pc.toNat + 2 ∧ RegsOnly [x] s t ∧
        OnlyChanges [.pc, .regs, .wait] s t)

/-- R205, R247, R248 (the document's S5; D10, log 10): step, deliver, step. -/
def Obligations.KeyCaptureRoundTrip : Prop :=
  ∀ (x : RegIdx) (key : Fin 16) (s : State), s.Running → s.waiting = false → s.pc.toNat + 2 < 4096 →
    fetchWord s.mem s.pc.toNat = some (encode (.ldVxK x)) →
    ∃ t u, step s = .next t ∧ t.pc = s.pc ∧ t.waiting = true ∧ (deliverCapturedKey key t).waiting = true ∧
      step (deliverCapturedKey key t) = .next u ∧ (u.reg x).toNat = key.val ∧ u.waiting = false ∧
      u.pc.toNat = s.pc.toNat + 2 ∧ u.Running

/-! ## Address register, BCD, bulk transfers -/

/-- R222: `I = 5 * Vx`, the register not masked. -/
def Obligations.FontAddressIsFiveTimesDigit : Prop :=
  ∀ (x : RegIdx) (s : State), s.pc.toNat + 2 < 4096 →
    ∃ t, exec (.ldF x) s = .next t ∧ t.i.toNat = 5 * (s.reg x).toNat ∧ t.pc.toNat = s.pc.toNat + 2 ∧
      OnlyChanges [.pc, .index] s t

/-- R220, R221 (LD I: G1, log 27; the latch: D8, log 1): `I = nnn`, and `I = I + Vx` or OutOfBounds, never a wrap. -/
def Obligations.IndexLoadAndAdd : Prop :=
  ∀ (nnn : Addr) (x : RegIdx) (s : State),
    (s.pc.toNat + 2 < 4096 → ∃ t, exec (.ldI nnn) s = .next t ∧ t.i = nnn ∧ t.pc.toNat = s.pc.toNat + 2 ∧
      OnlyChanges [.pc, .index] s t) ∧
    (s.pc.toNat + 2 < 4096 → s.i.toNat + (s.reg x).toNat < 4096 →
      ∃ t, exec (.addI x) s = .next t ∧ t.i.toNat = s.i.toNat + (s.reg x).toNat ∧ t.pc.toNat = s.pc.toNat + 2 ∧
        OnlyChanges [.pc, .index] s t) ∧
    (4096 ≤ s.i.toNat + (s.reg x).toNat → Raises (exec (.addI x) s) .outOfBounds)

/-- R223, R70 (stores below 512: D15, log 15; the latch: D8, log 1): the three decimal digits of Vx at I, I + 1, I + 2,
and no other byte. -/
def Obligations.BcdStoresThreeDigits : Prop :=
  ∀ (x : RegIdx) (s : State),
    (s.i.toNat + 2 < 4096 → s.pc.toNat + 2 < 4096 →
      ∃ t, exec (.ldB x) s = .next t ∧
        (s.reg x).toNat = (t.mem.readByte s.i.toNat).toNat * 100 + (t.mem.readByte (s.i.toNat + 1)).toNat * 10 +
          (t.mem.readByte (s.i.toNat + 2)).toNat ∧
        (t.mem.readByte (s.i.toNat + 1)).toNat < 10 ∧ (t.mem.readByte (s.i.toNat + 2)).toNat < 10 ∧
        MemOnly s.i.toNat 3 s t ∧ t.pc.toNat = s.pc.toNat + 2 ∧ OnlyChanges [.pc, .memory] s t) ∧
    (4096 ≤ s.i.toNat + 2 → Raises (exec (.ldB x) s) .outOfBounds)

/-- R224, R70, R36 (I at 4096: D13, log 13; stores below 512: D15, log 15; the latch: D8, log 1): V0 to Vx at I and on,
no other byte; I advances only with the quirk. -/
def Obligations.BulkStoreWritesRegisterBlock : Prop :=
  ∀ (x : RegIdx) (s : State) (next : Nat),
    next = (if s.memAccessQuirk then s.i.toNat + x.val + 1 else s.i.toNat) →
    (s.i.toNat + x.val < 4096 → next < 4096 → s.pc.toNat + 2 < 4096 →
      ∃ t, exec (.storeRegs x) s = .next t ∧
        (∀ k : RegIdx, k.val ≤ x.val → t.mem.readByte (s.i.toNat + k.val) = s.reg k) ∧
        MemOnly s.i.toNat (x.val + 1) s t ∧ t.i.toNat = next ∧ t.pc.toNat = s.pc.toNat + 2 ∧
        OnlyChanges [.pc, .memory, .index] s t) ∧
    (4096 ≤ s.i.toNat + x.val ∨ 4096 ≤ next → Raises (exec (.storeRegs x) s) .outOfBounds)

/-- R225, R70, R36 (I at 4096: D13, log 13; the latch: D8, log 1): V0 to Vx from I and on; the registers above x stay;
I advances only with the quirk. -/
def Obligations.BulkLoadReadsRegisterBlock : Prop :=
  ∀ (x : RegIdx) (s : State) (next : Nat),
    next = (if s.memAccessQuirk then s.i.toNat + x.val + 1 else s.i.toNat) →
    (s.i.toNat + x.val < 4096 → next < 4096 → s.pc.toNat + 2 < 4096 →
      ∃ t, exec (.loadRegs x) s = .next t ∧
        (∀ k : RegIdx, k.val ≤ x.val → t.reg k = s.mem.readByte (s.i.toNat + k.val)) ∧
        RegsOnly (regsUpTo x) s t ∧ t.i.toNat = next ∧ t.pc.toNat = s.pc.toNat + 2 ∧
        OnlyChanges [.pc, .regs, .index] s t) ∧
    (4096 ≤ s.i.toNat + x.val ∨ 4096 ≤ next → Raises (exec (.loadRegs x) s) .outOfBounds)

/-- R224, R225 (stores below 512: D15, log 15): without the memory-access quirk, registers stored and then loaded come
back, whatever the registers held in between. -/
def Obligations.BulkStoreThenLoadRestores : Prop :=
  ∀ (x : RegIdx) (s : State) (between : Vector Byte 16), s.memAccessQuirk = false → s.i.toNat + x.val < 4096 →
    s.pc.toNat + 4 < 4096 →
    ∃ t u, exec (.storeRegs x) s = .next t ∧ exec (.loadRegs x) { t with v := between } = .next u ∧
      (∀ k : RegIdx, k.val ≤ x.val → u.reg k = s.reg k) ∧ (∀ k : RegIdx, x.val < k.val → u.reg k = between[k.val])

/-- R74 (marked derived; I at 4096: D13, log 13; stores below 512: D15, log 15): after `Fx55`, with either setting of the
memory-access quirk, and after `Fx33`, the word the next step fetches is made of the bytes just stored wherever they
overlap it, and of the bytes that were there wherever they do not. -/
def Obligations.StoreIsSeenByNextFetch : Prop :=
  ∀ (x : RegIdx) (s : State), s.pc.toNat + 3 < 4096 →
    (s.i.toNat + x.val < 4096 → (if s.memAccessQuirk then s.i.toNat + x.val + 1 else s.i.toNat) < 4096 →
      ∃ t w, exec (.storeRegs x) s = .next t ∧ t.pc.toNat = s.pc.toNat + 2 ∧ fetchWord t.mem t.pc.toNat = some w ∧
        w.toNat =
          byteAfterStore s (((List.finRange 16).take (x.val + 1)).map fun k => (s.reg k).toNat) (s.pc.toNat + 2) * 256 +
          byteAfterStore s (((List.finRange 16).take (x.val + 1)).map fun k => (s.reg k).toNat) (s.pc.toNat + 3)) ∧
    (s.i.toNat + 2 < 4096 →
      ∃ t w, exec (.ldB x) s = .next t ∧ t.pc.toNat = s.pc.toNat + 2 ∧ fetchWord t.mem t.pc.toNat = some w ∧
        w.toNat =
          byteAfterStore s [(s.reg x).toNat / 100, (s.reg x).toNat / 10 % 10, (s.reg x).toNat % 10] (s.pc.toNat + 2) * 256 +
          byteAfterStore s [(s.reg x).toNat / 100, (s.reg x).toNat / 10 % 10, (s.reg x).toNat % 10] (s.pc.toNat + 3))

/-! ## Host operations -/

/-- R243 (on a stopped core: R254, D8, log 1): one tick counts each timer down by one, floored at 0. -/
def Obligations.TickCountsTimersDown : Prop :=
  ∀ s : State,
    (s.Running → (tickTimers s).dt.toNat = s.dt.toNat - 1 ∧ (tickTimers s).st.toNat = s.st.toNat - 1) ∧
    (s.fault = true → tickTimers s = s) ∧ OnlyChanges [.delay, .sound] s (tickTimers s)

/-- R245, R32 (on a stopped core: D8, log 1): the dirty flag is read and cleared at once; a second call with no draw in
between returns false. -/
def Obligations.DirtyFlagIsConsumedOnce : Prop :=
  ∀ s : State,
    (s.Running → (consumeDirtyFlag s).1 = s.dirty ∧ (consumeDirtyFlag s).2.dirty = false) ∧
    (consumeDirtyFlag (consumeDirtyFlag s).2).1 = false ∧
    (s.fault = true → consumeDirtyFlag s = (false, s)) ∧ OnlyChanges [.dirty] s (consumeDirtyFlag s).2

/-- R246, R275 (the software binding: D20, log 19; the latch: D8, log 1): all 16 flags are replaced; a list of another
length raises InputContractViolation. -/
def Obligations.SetKeysReplacesAllFlags : Prop :=
  ∀ (flags : List Bool) (s : State), s.Running →
    (∀ h : flags.length = 16,
      setKeysChecked flags s = setKeys ⟨flags.toArray, by simpa using h⟩ s ∧ (setKeysChecked flags s).Running ∧
      (∀ k : Fin 16, (setKeysChecked flags s).keyDown k = flags[k.val]) ∧
      OnlyChanges [.keys] s (setKeysChecked flags s)) ∧
    (flags.length ≠ 16 →
      (setKeysChecked flags s).fault = true ∧ (setKeysChecked flags s).faultCause = .inputContractViolation)

/-- R248 (KEY_VALID and the later delivery: D10, log 10; the range: D12, log 12; the latch: D8, log 1). -/
def Obligations.DeliveredKeyIsHeldForTheWait : Prop :=
  ∀ (key key' : Fin 16) (s : State), s.Running →
    (s.waiting = true →
      (deliverCapturedKey key s).capturedKey.toNat = key.val ∧ (deliverCapturedKey key s).keyValid = true ∧
      (deliverCapturedKey key s).waiting = true ∧ OnlyChanges [.wait] s (deliverCapturedKey key s) ∧
      deliverCapturedKey key' (deliverCapturedKey key s) = deliverCapturedKey key' s) ∧
    (s.waiting = false →
      (deliverCapturedKey key s).fault = true ∧ (deliverCapturedKey key s).faultCause = .protocolViolation)

/-- R249: the tone predicate is ST > 0, and asking changes nothing. -/
def Obligations.ToneSoundsWhileSoundTimerRuns : Prop :=
  ∀ (k : Nat) (s : State), (hostOp k .shouldSoundTone s).2 = s ∧
    (s.Running → ((hostOp k .shouldSoundTone s).1 = .flag true ↔ 0 < s.st.toNat) ∧
      ((hostOp k .shouldSoundTone s).1 = .flag false ↔ s.st.toNat = 0))

/-- R241, R300, R43, R30, R252 (the font's bytes: D5, log 6; zeros: D4, D6, log 5 and 7; KEY_VALID,
stack entries, cause's code: D10, D25, D9, log 10, 23, 9; the random source: log 34; a failed one: D24, log 22). -/
def Obligations.ConstructLoadsFontAndRom : Prop :=
  ∀ (k draws : Nat) (rom : List Byte) (sq mq : Bool),
    (rom.length ≤ 3584 →
      (construct k draws rom sq mq).pc.toNat = 512 ∧ (construct k draws rom sq mq).Running ∧
      (construct k draws rom sq mq).shiftQuirk = sq ∧ (construct k draws rom sq mq).memAccessQuirk = mq ∧
      (construct k draws rom sq mq).sp = 0 ∧ (construct k draws rom sq mq).waiting = false ∧
      (∀ a, a < 80 → (construct k draws rom sq mq).mem.readByte a = font.getD a 0) ∧
      (∀ j (h : j < rom.length), (construct k draws rom sq mq).mem.readByte (512 + j) = rom[j]) ∧
      (∀ a, 80 ≤ a → (a < 512 ∨ 512 + rom.length ≤ a) → (construct k draws rom sq mq).mem.readByte a = 0) ∧
      OnlyChanges [.memory, .quirks, .random] State.reset (construct k draws rom sq mq) ∧
      (construct k draws rom sq mq).mem.wf = true) ∧
    (3584 < rom.length →
      (construct k draws rom sq mq).fault = true ∧ (construct k draws rom sq mq).faultCause = .outOfBounds)

/-- R244, R247, R249, R251, R271 (what running means: D8, log 1; the linear order: D23, log 21; the codes: D9, log 9).
What the queries answer: on a running machine the grid, WAITING and ST > 0; on any machine FAULT and the code of its
cause; and each leaves the state as it is. -/
def Obligations.QueriesAnswerTheState : Prop :=
  ∀ (k : Nat) (s : State),
    (s.Running →
      hostOp k .readDisplay s = (.display s.pix, s) ∧ hostOp k .isWaitingForKey s = (.flag s.waiting, s) ∧
      hostOp k .shouldSoundTone s = (.flag (decide (0 < s.st.toNat)), s)) ∧
    (∀ x y, x < 64 → y < 32 → (linearDisplay s.pix)[y * 64 + x]? = some (s.pix.lit x y)) ∧
    (linearDisplay s.pix).length = 2048 ∧
    ∃ code : BitVec 3, hostOp k .faultStatus s = (.status s.fault code, s) ∧
      (s.faultCause = .none → code = 0) ∧ (s.faultCause = .outOfBounds → code = 1) ∧
      (s.faultCause = .invalidOpcode → code = 2) ∧ (s.faultCause = .protocolViolation → code = 3) ∧
      (s.faultCause = .inputContractViolation → code = 4)
end

