-- ==== Sys2Proof/Laws/State.lean ====
section
/-! SUPPORT. One lemma per field per named update of State, so that no proof unfolds a record update. -/

namespace Sys2Proof.Machine

variable (s : State) (x y : RegIdx) (b : Byte) (c : Cause)

/-! ## Writing a register -/

@[simp] theorem setReg_v : (s.setReg x b).v = s.v.set x.val b := rfl
@[simp] theorem setReg_i : (s.setReg x b).i = s.i := rfl
@[simp] theorem setReg_pc : (s.setReg x b).pc = s.pc := rfl
@[simp] theorem setReg_sp : (s.setReg x b).sp = s.sp := rfl
@[simp] theorem setReg_stack : (s.setReg x b).stack = s.stack := rfl
@[simp] theorem setReg_dt : (s.setReg x b).dt = s.dt := rfl
@[simp] theorem setReg_st : (s.setReg x b).st = s.st := rfl
@[simp] theorem setReg_mem : (s.setReg x b).mem = s.mem := rfl
@[simp] theorem setReg_pix : (s.setReg x b).pix = s.pix := rfl
@[simp] theorem setReg_dirty : (s.setReg x b).dirty = s.dirty := rfl
@[simp] theorem setReg_keys : (s.setReg x b).keys = s.keys := rfl
@[simp] theorem setReg_waiting : (s.setReg x b).waiting = s.waiting := rfl
@[simp] theorem setReg_keyValid : (s.setReg x b).keyValid = s.keyValid := rfl
@[simp] theorem setReg_capturedKey : (s.setReg x b).capturedKey = s.capturedKey := rfl
@[simp] theorem setReg_shiftQuirk : (s.setReg x b).shiftQuirk = s.shiftQuirk := rfl
@[simp] theorem setReg_memAccessQuirk : (s.setReg x b).memAccessQuirk = s.memAccessQuirk := rfl
@[simp] theorem setReg_fault : (s.setReg x b).fault = s.fault := rfl
@[simp] theorem setReg_faultCause : (s.setReg x b).faultCause = s.faultCause := rfl
@[simp] theorem setReg_draws : (s.setReg x b).draws = s.draws := rfl

/-- A register reads as the last value written to it, and no other register changes. -/
theorem reg_setReg : (s.setReg x b).reg y = if y = x then b else s.reg y := by
  simp only [State.reg, State.setReg, Vector.getElem_set, Fin.ext_iff, eq_comm]

@[simp] theorem reg_setReg_self : (s.setReg x b).reg x = b := by simp [reg_setReg]

@[simp] theorem reg_setReg_of_ne (h : y ≠ x) : (s.setReg x b).reg y = s.reg y := by simp [reg_setReg, h]

/-! ## The latch -/

@[simp] theorem latch_v : (s.latch c).v = s.v := rfl
@[simp] theorem latch_i : (s.latch c).i = s.i := rfl
@[simp] theorem latch_pc : (s.latch c).pc = s.pc := rfl
@[simp] theorem latch_sp : (s.latch c).sp = s.sp := rfl
@[simp] theorem latch_stack : (s.latch c).stack = s.stack := rfl
@[simp] theorem latch_dt : (s.latch c).dt = s.dt := rfl
@[simp] theorem latch_st : (s.latch c).st = s.st := rfl
@[simp] theorem latch_mem : (s.latch c).mem = s.mem := rfl
@[simp] theorem latch_pix : (s.latch c).pix = s.pix := rfl
@[simp] theorem latch_dirty : (s.latch c).dirty = s.dirty := rfl
@[simp] theorem latch_keys : (s.latch c).keys = s.keys := rfl
@[simp] theorem latch_waiting : (s.latch c).waiting = s.waiting := rfl
@[simp] theorem latch_keyValid : (s.latch c).keyValid = s.keyValid := rfl
@[simp] theorem latch_capturedKey : (s.latch c).capturedKey = s.capturedKey := rfl
@[simp] theorem latch_shiftQuirk : (s.latch c).shiftQuirk = s.shiftQuirk := rfl
@[simp] theorem latch_memAccessQuirk : (s.latch c).memAccessQuirk = s.memAccessQuirk := rfl
@[simp] theorem latch_fault : (s.latch c).fault = true := rfl
@[simp] theorem latch_faultCause : (s.latch c).faultCause = c := rfl
@[simp] theorem latch_draws : (s.latch c).draws = s.draws := rfl
@[simp] theorem reg_latch : (s.latch c).reg x = s.reg x := rfl

end Sys2Proof.Machine
end

