-- ==== Sys2Proof/Laws/Memory.lean ====
section
/-! SUPPORT. Memory: a read after a write, and that every write keeps the canonical form. -/

namespace Sys2Proof.Machine

theorem readByte_putCell (m : Memory) (a : Nat) (b : Byte) (c : Nat) :
    (m.putCell a b).readByte c = if c = a then b else m.readByte c := by
  induction m with
  | nil => simp [Memory.putCell, Memory.readByte]
  | cons e m ih =>
    obtain ⟨k, d⟩ := e
    simp only [Memory.putCell]
    split
    · simp [Memory.readByte]
    · split
      · subst_vars
        by_cases h : c = k <;> simp [Memory.readByte, h]
      · by_cases h : c = k
        · subst h
          simp [Memory.readByte, Ne.symm ‹¬a = c›]
        · simp [Memory.readByte, h, ih]

theorem readByte_dropCell (m : Memory) (a c : Nat) :
    (m.dropCell a).readByte c = if c = a then background a else m.readByte c := by
  induction m with
  | nil => by_cases h : c = a <;> simp [Memory.dropCell, Memory.readByte, h]
  | cons e m ih =>
    obtain ⟨k, d⟩ := e
    simp only [Memory.dropCell]
    split
    · subst_vars
      by_cases h : c = k
      · simpa [h] using ih
      · simp [Memory.readByte, h, ih]
    · by_cases h : c = k
      · subst h
        simp [Memory.readByte, Ne.symm ‹¬a = c›]
      · simp [Memory.readByte, h, ih]

/-- A read after a write: the byte written, and every other address as before. -/
theorem readByte_writeByte (m : Memory) (a : Nat) (b : Byte) (c : Nat) :
    (m.writeByte a b).readByte c = if c = a then b else m.readByte c := by
  unfold Memory.writeByte
  split
  · rw [readByte_dropCell]
    simp_all
  · exact readByte_putCell m a b c

/-- A read after a block write: the block's bytes in order, and every other address as before. -/
theorem readByte_writeBytes (m : Memory) (a : Nat) (bs : List Byte) (c : Nat) :
    (m.writeBytes a bs).readByte c =
      if a ≤ c ∧ c < a + bs.length then bs.getD (c - a) 0 else m.readByte c := by
  induction bs generalizing m a with
  | nil => simp [Memory.writeBytes]
  | cons b bs ih =>
    simp only [Memory.writeBytes, ih, readByte_writeByte, List.length_cons]
    by_cases h : c = a
    · subst h
      simp
    · by_cases h2 : a + 1 ≤ c ∧ c < a + 1 + bs.length
      · rw [if_pos h2, if_pos (by omega)]
        obtain ⟨j, rfl⟩ : ∃ j, c = a + 1 + j := ⟨c - (a + 1), by omega⟩
        have e1 : a + 1 + j - (a + 1) = j := by omega
        have e2 : a + 1 + j - a = j + 1 := by omega
        rw [e1, e2]
        simp
      · rw [if_neg h2, if_neg h, if_neg (by omega)]

theorem wfFrom_mono {lo lo' : Nat} {m : Memory} (h : lo' ≤ lo) (hm : m.wfFrom lo = true) : m.wfFrom lo' = true := by
  cases m with
  | nil => rfl
  | cons e m =>
    obtain ⟨k, d⟩ := e
    simp only [Memory.wfFrom, Bool.and_eq_true, decide_eq_true_eq] at *
    exact ⟨⟨⟨h.trans hm.1.1.1, hm.1.1.2⟩, hm.1.2⟩, hm.2⟩

theorem wfFrom_putCell {lo a : Nat} {b : Byte} {m : Memory} (hm : m.wfFrom lo = true) (hlo : lo ≤ a)
    (ha : a < Config.memSize) (hb : b ≠ background a) : (m.putCell a b).wfFrom lo = true := by
  induction m generalizing lo with
  | nil => simp_all [Memory.putCell, Memory.wfFrom]
  | cons e m ih =>
    obtain ⟨k, d⟩ := e
    simp only [Memory.wfFrom, Bool.and_eq_true, decide_eq_true_eq] at hm
    simp only [Memory.putCell]
    split
    · simp_all [Memory.wfFrom]
    · split
      · subst_vars
        simp_all [Memory.wfFrom]
      · have := ih hm.2 (by omega)
        simp_all [Memory.wfFrom]

theorem wfFrom_dropCell {lo a : Nat} {m : Memory} (hm : m.wfFrom lo = true) : (m.dropCell a).wfFrom lo = true := by
  induction m generalizing lo with
  | nil => rfl
  | cons e m ih =>
    obtain ⟨k, d⟩ := e
    simp only [Memory.wfFrom, Bool.and_eq_true, decide_eq_true_eq] at hm
    simp only [Memory.dropCell]
    split
    · exact wfFrom_mono (by omega) (ih hm.2)
    · simp_all [Memory.wfFrom]

/-- A write below 4096 keeps the canonical form. -/
theorem wf_writeByte {m : Memory} (hm : m.wf = true) {a : Nat} (ha : a < Config.memSize) (b : Byte) :
    (m.writeByte a b).wf = true := by
  unfold Memory.writeByte Memory.wf
  split
  · exact wfFrom_dropCell hm
  · exact wfFrom_putCell hm (Nat.zero_le a) ha ‹_›

/-- A block write that stays below 4096 keeps the canonical form. -/
theorem wf_writeBytes {m : Memory} (hm : m.wf = true) {a : Nat} {bs : List Byte}
    (h : a + bs.length ≤ Config.memSize) : (m.writeBytes a bs).wf = true := by
  induction bs generalizing m a with
  | nil => exact hm
  | cons b bs ih =>
    simp only [List.length_cons] at h
    exact ih (wf_writeByte hm (by omega) b) (by omega)

/-- The memory at reset is canonical. -/
theorem wf_reset : State.reset.mem.wf = true := rfl

/-- Two canonical memories from `lo` on that read alike at every address are equal lists: the form is canonical. -/
theorem wfFrom_ext {lo : Nat} {m n : Memory} (hm : m.wfFrom lo = true) (hn : n.wfFrom lo = true)
    (h : ∀ a, m.readByte a = n.readByte a) : m = n := by
  have low : ∀ {lo : Nat} {m : Memory} {a : Nat}, m.wfFrom lo = true → a < lo → m.readByte a = background a := by
    intro lo m a
    induction m generalizing lo with
    | nil => intros; rfl
    | cons e m ih =>
      obtain ⟨k, d⟩ := e
      intro hm ha
      simp only [Memory.wfFrom, Bool.and_eq_true, decide_eq_true_eq] at hm
      simp only [Memory.readByte]
      rw [if_neg (by omega)]
      exact ih hm.2 (by omega)
  induction m generalizing n lo with
  | nil =>
    cases n with
    | nil => rfl
    | cons e n =>
      obtain ⟨k, d⟩ := e
      simp only [Memory.wfFrom, Bool.and_eq_true, decide_eq_true_eq, bne_iff_ne] at hn
      exact absurd (h k).symm (by simpa [Memory.readByte] using hn.1.2)
  | cons e m ih =>
    obtain ⟨k, d⟩ := e
    simp only [Memory.wfFrom, Bool.and_eq_true, decide_eq_true_eq, bne_iff_ne] at hm
    cases n with
    | nil => exact absurd (h k) (by simpa [Memory.readByte] using hm.1.2)
    | cons f n =>
      obtain ⟨l, b⟩ := f
      simp only [Memory.wfFrom, Bool.and_eq_true, decide_eq_true_eq, bne_iff_ne] at hn
      have hkl : k = l := by
        rcases Nat.lt_trichotomy k l with hlt | heq | hgt
        · have := h k
          simp only [Memory.readByte, if_true] at this
          rw [if_neg (by omega), low hn.2 (by omega)] at this
          exact absurd this hm.1.2
        · exact heq
        · have := (h l).symm
          simp only [Memory.readByte, if_true] at this
          rw [if_neg (by omega), low hm.2 (by omega)] at this
          exact absurd this hn.1.2
      subst hkl
      have hdb : d = b := by simpa [Memory.readByte] using h k
      subst hdb
      congr 1
      refine ih hm.2 hn.2 fun a => ?_
      by_cases ha : a = k
      · subst ha
        rw [low hm.2 (by omega), low hn.2 (by omega)]
      · simpa [Memory.readByte, ha] using h a

end Sys2Proof.Machine
end

