-- ==== Sys2Proof/Laws/Ops.lean ====
section
/-! SUPPORT. One lemma for each shared operation that says all it can do. -/

namespace Sys2Proof.Machine

variable {s s' t : State}

@[simp] theorem memSize_eq : Config.memSize = 4096 := rfl

@[simp] theorem romBase_eq : Config.romBase = 512 := rfl

theorem raise_eq (c : Cause) (s : State) : raise c s = .next (s.latch c) := rfl

theorem raises_raise (c : Cause) (s : State) : Raises (raise c s) c := ⟨_, rfl, rfl, rfl⟩

/-! ## The end of a step -/

/-- A `next_pc` below 4096 is committed with the handler's writes. -/
theorem commit_of_lt {n : Nat} (h : n < 4096) : commit s s' n = .next { s' with pc := BitVec.ofNat 12 n } := by
  simp [commit, Nat.not_le.mpr h]

/-- A `next_pc` of 4096 or more raises OutOfBounds. -/
theorem commit_of_le {n : Nat} (h : 4096 ≤ n) : commit s s' n = .next (s.latch .outOfBounds) := by
  simp [commit, h, raise_eq]

/-- All that `commit` can answer. -/
theorem commit_next {n : Nat} (h : commit s s' n = .next t) :
    (n < 4096 ∧ t = { s' with pc := BitVec.ofNat 12 n }) ∨ (4096 ≤ n ∧ t = s.latch .outOfBounds) := by
  rcases Nat.lt_or_ge n 4096 with hn | hn
  · rw [commit_of_lt hn] at h
    exact .inl ⟨hn, (Host.Outcome.next.inj h).symm⟩
  · rw [commit_of_le hn] at h
    exact .inr ⟨hn, (Host.Outcome.next.inj h).symm⟩

theorem advance_of_lt (h : s.pc.toNat + 2 < 4096) :
    advance s s' = .next { s' with pc := BitVec.ofNat 12 (s.pc.toNat + 2) } := commit_of_lt h

theorem advance_of_le (h : 4096 ≤ s.pc.toNat + 2) : advance s s' = .next (s.latch .outOfBounds) := commit_of_le h

theorem skipIf_of_lt {c : Bool} (h : s.pc.toNat + (if c then 4 else 2) < 4096) :
    skipIf c s = .next { s with pc := BitVec.ofNat 12 (s.pc.toNat + if c then 4 else 2) } := commit_of_lt h

/-- A legal target is where the step ends. -/
theorem jump_of_ok {n : Nat} (h1 : 512 ≤ n) (h2 : n < 4096) :
    jump s s' n = .next { s' with pc := BitVec.ofNat 12 n } := by
  simp [jump, Nat.not_lt.mpr h1, Nat.not_le.mpr h2, commit_of_lt h2]

theorem jump_of_bad {n : Nat} (h : n < 512 ∨ 4096 ≤ n) : jump s s' n = .next (s.latch .outOfBounds) := by
  simp [jump, h, raise_eq]

/-- All that `jump` can answer. -/
theorem jump_next {n : Nat} (h : jump s s' n = .next t) :
    (512 ≤ n ∧ n < 4096 ∧ t = { s' with pc := BitVec.ofNat 12 n }) ∨ t = s.latch .outOfBounds := by
  by_cases hb : n < 512 ∨ 4096 ≤ n
  · rw [jump_of_bad hb] at h
    exact .inr (Host.Outcome.next.inj h).symm
  · rw [jump_of_ok (by omega) (by omega)] at h
    exact .inl ⟨by omega, by omega, (Host.Outcome.next.inj h).symm⟩

/-- A program counter after a commit, as a number. -/
@[simp] theorem pcOf_toNat {n : Nat} (h : n < 4096) : (BitVec.ofNat 12 n).toNat = n := by
  simp [Nat.mod_eq_of_lt h]

/-! ## The call stack -/

theorem push_of_lt {a : Addr} (h : s.sp.val < 16) :
    s.push a = some { s with stack := s.stack.set s.sp.val a, sp := ⟨s.sp.val + 1, by omega⟩ } := by
  simp [State.push, h]

theorem push_of_full {a : Addr} (h : s.sp.val = 16) : s.push a = none := by simp [State.push, h]

theorem pop_of_pos (h : 0 < s.sp.val) :
    s.pop = some (s.stack[s.sp.val - 1], { s with sp := ⟨s.sp.val - 1, by omega⟩ }) := by
  simp [State.pop, h]

theorem pop_of_empty (h : s.sp.val = 0) : s.pop = none := by simp [State.pop, h]

/-! ## Operands and flags -/

theorem keyOf_fault_of_lt {b : Byte} (h : b.toNat < 16) : keyOf .fault b = some ⟨b.toNat, h⟩ := by simp [keyOf, h]

theorem keyOf_fault_of_le {b : Byte} (h : 16 ≤ b.toNat) : keyOf .fault b = none := by
  simp [keyOf, Nat.not_lt.mpr h]

theorem regBlock_length (x : RegIdx) : (regBlock s x).length = x.val + 1 := by
  simp [regBlock]

theorem regBlock_getD {x : RegIdx} {k : Nat} (h : k ≤ x.val) :
    (regBlock s x).getD k 0 = s.reg ⟨k, by omega⟩ := by
  have hk : k < 16 := by omega
  simp [regBlock, State.reg, Nat.lt_succ_of_le h]

@[simp] theorem bcdDigits_length (b : Byte) : (bcdDigits b).length = 3 := by simp [bcdDigits]

@[simp] theorem sum8_toNat (a b : Byte) : (sum8 a b).toNat = (a.toNat + b.toNat) % 256 := by simp [sum8]

theorem diff8_toNat (a b : Byte) :
    (diff8 a b).toNat = if b.toNat ≤ a.toNat then a.toNat - b.toNat else a.toNat + 256 - b.toNat := by
  have := a.isLt
  have := b.isLt
  simp only [diff8, trunc8_toNat]
  split <;> omega

theorem writeWithFlag_flagLast (s : State) (x : RegIdx) (r : Byte) (f : Bool) :
    writeWithFlag .flagLast s x r f = (s.setReg x r).setReg vf (flagByte f) := rfl

end Sys2Proof.Machine
end

