-- ==== Sys2Proof/Laws/Display.lean ====
section
/-! SUPPORT. The display: reading a pixel after a toggle, and all that drawing a sprite does (R191). -/

namespace Sys2Proof.Machine

/-- No pixel of the blank display is lit. -/
@[simp] theorem lit_blank (x y : Nat) : Display.lit blankDisplay x y = false := by
  unfold Display.lit blankDisplay
  split <;> simp

/-- A toggle turns its own pixel over and leaves every other alone. -/
theorem lit_toggle (d : Display) {px py : Nat} (hx : px < 64) (hy : py < 32) (x y : Nat) :
    Display.lit (Display.toggle d px py) x y = if x = px ∧ y = py then !Display.lit d px py else Display.lit d x y := by
  have old : Display.lit d px py = d[py][px] := dif_pos ⟨hy, hx⟩
  rw [show Display.toggle d px py = d.set py (d[py].set px (!d[py][px])) from dif_pos ⟨hy, hx⟩, old]
  unfold Display.lit
  by_cases h : y < 32 ∧ x < 64
  · rw [dif_pos h, dif_pos h]
    by_cases h1 : y = py
    · subst h1
      by_cases h2 : x = px
      · subst h2; simp
      · simp [h2, Ne.symm h2]
    · simp [h1, Ne.symm h1]
  · rw [dif_neg h, dif_neg h, if_neg (by omega)]

/-- Drawing the first `j` columns of one row. -/
theorem drawBits_spec (b : Byte) (ox : Nat) {py : Nat} (hy : py < 32) (j : Nat) (d : Display) (c : Bool) :
    (∀ x y, Display.lit ((List.range j).foldl (drawBit b ox py) (d, c)).1 x y =
        (Display.lit d x y ^^ decide (y = py ∧ x < 64 ∧ ox ≤ x ∧ x < ox + j ∧ spriteBit b (x - ox) = true))) ∧
      (((List.range j).foldl (drawBit b ox py) (d, c)).2 = true ↔
        c = true ∨ ∃ x, x < 64 ∧ ox ≤ x ∧ x < ox + j ∧ spriteBit b (x - ox) = true ∧ Display.lit d x py = true) := by
  induction j with
  | zero =>
    refine ⟨fun x y => ?_, ?_⟩
    · rw [decide_eq_false (by omega)]; simp
    · simp only [List.range_zero, List.foldl_nil]
      exact ⟨.inl, fun h => h.elim id fun ⟨x, h⟩ => by omega⟩
  | succ j ih =>
    simp only [List.range_succ, List.foldl_append, List.foldl_cons, List.foldl_nil]
    generalize (List.range j).foldl (drawBit b ox py) (d, c) = k at ih ⊢
    obtain ⟨ih1, ih2⟩ := ih
    unfold drawBit
    split
    next h =>
      refine ⟨fun x y => ?_, ?_⟩
      · simp only [lit_toggle k.1 (show ox + j < 64 by omega) hy, ih1]
        by_cases hxy : x = ox + j ∧ y = py
        · obtain ⟨rfl, rfl⟩ := hxy
          have e : ox + j - ox = j := by omega
          have h64 : ox + j < 64 := by omega
          simp [e, h.2, h64]
        · rw [if_neg hxy]
          congr 1
          exact decide_eq_decide.mpr ⟨fun ⟨a, b, c, d, e⟩ => ⟨a, b, c, by omega, e⟩,
            fun ⟨a, b, c, d, e⟩ => ⟨a, b, c, by omega, e⟩⟩
      · simp only [Bool.or_eq_true, ih2, ih1]
        rw [decide_eq_false (by omega), Bool.xor_false]
        constructor
        · rintro ((hc | ⟨x, h1, h2, h3, h4⟩) | hl)
          · exact .inl hc
          · exact .inr ⟨x, h1, h2, by omega, h4⟩
          · exact .inr ⟨ox + j, by omega, by omega, by omega, by simpa using h.2, hl⟩
        · rintro (hc | ⟨x, h1, h2, h3, h4⟩)
          · exact .inl (.inl hc)
          · by_cases hx : x = ox + j
            · subst hx; exact .inr h4.2
            · exact .inl (.inr ⟨x, h1, h2, by omega, h4⟩)
    next h =>
      have skip : ∀ x, x < 64 → x < ox + (j + 1) → ox ≤ x → spriteBit b (x - ox) = true → x < ox + j := by
        intro x h1 h2 h3 h4
        rcases Nat.lt_or_ge x (ox + j) with hl | hg
        · exact hl
        · obtain rfl : x = ox + j := by omega
          exact absurd ⟨by omega, by simpa using h4⟩ h
      refine ⟨fun x y => ?_, ?_⟩
      · rw [ih1]
        congr 1
        exact decide_eq_decide.mpr ⟨fun ⟨a, b, c, d, e⟩ => ⟨a, b, c, by omega, e⟩,
          fun ⟨a, b, c, d, e⟩ => ⟨a, b, c, skip x b d c e, e⟩⟩
      · rw [ih2]
        exact or_congr_right ⟨fun ⟨x, a, b, c, d⟩ => ⟨x, a, b, by omega, d⟩,
          fun ⟨x, a, b, c, d⟩ => ⟨x, a, b, skip x a c b d.1, d⟩⟩

/-- All that drawing a sprite does: each pixel that a 1 bit falls on turns over, no other changes, and the collision
bit is set iff one of the pixels turned over was lit. -/
theorem drawSprite_spec (m : Memory) (a ox oy n : Nat) (d : Display) (c : Bool) :
    (∀ x y, (Display.lit (drawSprite m a ox oy n (d, c)).1 x y = true ↔
        ¬(Display.lit d x y = true ↔ spriteOn m a ox oy n x y))) ∧
      ((drawSprite m a ox oy n (d, c)).2 = true ↔
        c = true ∨ ∃ x y, spriteOn m a ox oy n x y ∧ Display.lit d x y = true) := by
  unfold drawSprite
  induction n with
  | zero =>
    refine ⟨fun x y => ?_, ?_⟩
    · have : ¬spriteOn m a ox oy 0 x y := fun h => by unfold spriteOn at h; omega
      simp [this]
    · have : ∀ x y, ¬spriteOn m a ox oy 0 x y := fun x y h => by unfold spriteOn at h; omega
      simp [this]
  | succ n ih =>
    simp only [List.range_succ, List.foldl_append, List.foldl_cons, List.foldl_nil]
    generalize (List.range n).foldl (fun k r => drawRow (m.readByte (a + r)) ox (oy + r) k) (d, c) = k at ih ⊢
    obtain ⟨ih1, ih2⟩ := ih
    have grow : ∀ x y, spriteOn m a ox oy (n + 1) x y ↔
        spriteOn m a ox oy n x y ∨
          (y = oy + n ∧ oy + n < 32 ∧ x < 64 ∧ ox ≤ x ∧ x < ox + 8 ∧ spriteBit (m.readByte (a + n)) (x - ox) = true) := by
      intro x y
      unfold spriteOn spriteBit
      constructor
      · rintro ⟨h1, h2, h3, h4, h5, h6, h7⟩
        by_cases hy : y = oy + n
        · subst hy
          have e : oy + n - oy = n := by omega
          rw [e] at h7
          exact .inr ⟨rfl, h2, h1, h3, h4, h7⟩
        · exact .inl ⟨h1, h2, h3, h4, h5, by omega, h7⟩
      · rintro (⟨h1, h2, h3, h4, h5, h6, h7⟩ | ⟨rfl, h2, h1, h3, h4, h7⟩)
        · exact ⟨h1, h2, h3, h4, h5, by omega, h7⟩
        · have e : oy + n - oy = n := by omega
          exact ⟨h1, h2, h3, h4, by omega, by omega, by rw [e]; exact h7⟩
    have apart : ∀ x, ¬spriteOn m a ox oy n x (oy + n) := fun x h => by unfold spriteOn at h; omega
    unfold drawRow
    split
    next hy =>
      obtain ⟨r1, r2⟩ := drawBits_spec (m.readByte (a + n)) ox (show oy + n < 32 by omega) 8 k.1 k.2
      refine ⟨fun x y => ?_, ?_⟩
      · rw [r1, grow]
        by_cases hrow : y = oy + n
        · subst hrow
          have hlit := ih1 x (oy + n)
          simp only [apart x, iff_false, not_not] at hlit
          simp only [apart x, false_or, true_and, show oy + n < 32 by omega]
          by_cases hp : x < 64 ∧ ox ≤ x ∧ x < ox + 8 ∧ spriteBit (m.readByte (a + n)) (x - ox) = true
          · rw [decide_eq_true hp, Bool.xor_true, Bool.not_eq_true', ← Bool.not_eq_true, hlit]
            exact not_congr ⟨fun h => ⟨fun _ => hp, fun _ => h⟩, fun h => h.mpr hp⟩
          · rw [decide_eq_false hp, Bool.xor_false, hlit]
            exact ⟨fun h c => hp (c.mp h), fun h => by_contra fun hd => h ⟨fun c => absurd c hd, fun c => absurd c hp⟩⟩
        · simp [hrow, ih1]
      · rw [r2, ih2]
        have lk : ∀ x, Display.lit k.1 x (oy + n) = true ↔ Display.lit d x (oy + n) = true := fun x => by
          rw [ih1]; simp [apart x]
        constructor
        · rintro ((hc | ⟨x, y, h1, h2⟩) | ⟨x, h1, h2, h3, h4, h5⟩)
          · exact .inl hc
          · exact .inr ⟨x, y, (grow x y).mpr (.inl h1), h2⟩
          · exact .inr ⟨x, oy + n, (grow _ _).mpr (.inr ⟨rfl, by omega, h1, h2, h3, h4⟩), (lk x).mp h5⟩
        · rintro (hc | ⟨x, y, h1, h2⟩)
          · exact .inl (.inl hc)
          · rcases (grow x y).mp h1 with h | ⟨rfl, _, g1, g2, g3, g4⟩
            · exact .inl (.inr ⟨x, y, h, h2⟩)
            · exact .inr ⟨x, g1, g2, g3, g4, (lk x).mpr h2⟩
    next hy =>
      have same : ∀ x y, spriteOn m a ox oy (n + 1) x y ↔ spriteOn m a ox oy n x y := fun x y => by
        rw [grow]
        exact ⟨fun h => h.elim id fun h => by omega, .inl⟩
      exact ⟨fun x y => by rw [ih1, same], by rw [ih2]; simp only [same]⟩

/-! ## Rows laid end to end -/

/-- Rows of one length laid end to end have the rows' length for each row. -/
theorem length_flatMap_rows {α β : Type} {f : α → List β} {w : Nat} (hw : ∀ a, (f a).length = w) (l : List α) :
    (l.flatMap f).length = l.length * w := by
  induction l with
  | nil => simp
  | cons a l ih => rw [List.flatMap_cons, List.length_append, ih, hw, List.length_cons]; ring

/-- Entry `y * w + x` of rows of length `w` laid end to end is entry `x` of row `y`. -/
theorem getElem?_flatMap_rows {α β : Type} {f : α → List β} {w : Nat} (hw : ∀ a, (f a).length = w) (l : List α)
    {x : Nat} (hx : x < w) (y : Nat) : (l.flatMap f)[y * w + x]? = l[y]?.bind fun a => (f a)[x]? := by
  induction l generalizing y with
  | nil => simp
  | cons a l ih =>
    rw [List.flatMap_cons]
    cases y with
    | zero => simp [List.getElem?_append_left, hw, hx]
    | succ y =>
      rw [List.getElem?_append_right (by rw [hw]; nlinarith), hw, List.getElem?_cons_succ, ← ih]
      congr 1
      have : (y + 1) * w = y * w + w := Nat.succ_mul y w
      omega

end Sys2Proof.Machine
end

