-- ==== Sys2Proof/Laws/Encoding.lean ====
section
/-! SUPPORT. The small lemmas of the encoder's forms and the decoder's fields (R91, R93). -/

namespace Sys2Proof

theorem append_toNat {m n : Nat} (a : BitVec m) (b : BitVec n) : (a ++ b).toNat = a.toNat * 2 ^ n + b.toNat := by
  rw [BitVec.toNat_append, ← Nat.shiftLeft_add_eq_or_of_lt b.isLt, Nat.shiftLeft_eq]

@[simp] theorem regBits_toNat (x : RegIdx) : (regBits x).toNat = x.val := rfl

/-! ## Each field as a number -/

theorem famOf_toNat (w : InstrWord) : (famOf w).toNat = w.toNat / 4096 := by
  have := w.isLt
  simp [famOf, Nat.shiftRight_eq_div_pow]
  omega

theorem xOf_val (w : InstrWord) : (xOf w).val = w.toNat / 256 % 16 := by
  change (w.extractLsb' 8 4).toNat = _
  simp [Nat.shiftRight_eq_div_pow]

theorem yOf_val (w : InstrWord) : (yOf w).val = w.toNat / 16 % 16 := by
  change (w.extractLsb' 4 4).toNat = _
  simp [Nat.shiftRight_eq_div_pow]

theorem nOf_val (w : InstrWord) : (nOf w).val = w.toNat % 16 := by
  change (w.extractLsb' 0 4).toNat = _
  simp

theorem kkOf_toNat (w : InstrWord) : (kkOf w).toNat = w.toNat % 256 := by simp [kkOf]

theorem nnnOf_toNat (w : InstrWord) : (nnnOf w).toNat = w.toNat % 4096 := by simp [nnnOf]

/-! ## Each form as a number -/

theorem formNNN_toNat (f : BitVec 4) (nnn : Addr) : (formNNN f nnn).toNat = f.toNat * 4096 + nnn.toNat :=
  append_toNat f nnn

theorem formXKK_toNat (f : BitVec 4) (x : RegIdx) (kk : Byte) :
    (formXKK f x kk).toNat = f.toNat * 4096 + x.val * 256 + kk.toNat := by
  have h : (formXKK f x kk).toNat = (f.toNat * 2 ^ 4 + x.val) * 2 ^ 8 + kk.toNat :=
    (append_toNat _ _).trans (congrArg (· * 2 ^ 8 + kk.toNat) (append_toNat _ _))
  exact h.trans (by omega)

theorem formXYN_toNat (f : BitVec 4) (x y : RegIdx) (n : BitVec 4) :
    (formXYN f x y n).toNat = f.toNat * 4096 + x.val * 256 + y.val * 16 + n.toNat := by
  have h : (formXYN f x y n).toNat = ((f.toNat * 2 ^ 4 + x.val) * 2 ^ 4 + y.val) * 2 ^ 4 + n.toNat :=
    (append_toNat _ _).trans (congrArg (· * 2 ^ 4 + n.toNat)
      ((append_toNat _ _).trans (congrArg (· * 2 ^ 4 + y.val) (append_toNat _ _))))
  exact h.trans (by omega)

/-! ## The fields of each form -/

@[simp] theorem famOf_formNNN (f : BitVec 4) (nnn : Addr) : famOf (formNNN f nnn) = f := by
  apply BitVec.eq_of_toNat_eq
  rw [famOf_toNat, formNNN_toNat]
  omega

@[simp] theorem nnnOf_formNNN (f : BitVec 4) (nnn : Addr) : nnnOf (formNNN f nnn) = nnn := by
  apply BitVec.eq_of_toNat_eq
  rw [nnnOf_toNat, formNNN_toNat]
  omega

@[simp] theorem famOf_formXKK (f : BitVec 4) (x : RegIdx) (kk : Byte) : famOf (formXKK f x kk) = f := by
  apply BitVec.eq_of_toNat_eq
  rw [famOf_toNat, formXKK_toNat]
  omega

@[simp] theorem xOf_formXKK (f : BitVec 4) (x : RegIdx) (kk : Byte) : xOf (formXKK f x kk) = x := by
  apply Fin.ext
  rw [xOf_val, formXKK_toNat]
  omega

@[simp] theorem kkOf_formXKK (f : BitVec 4) (x : RegIdx) (kk : Byte) : kkOf (formXKK f x kk) = kk := by
  apply BitVec.eq_of_toNat_eq
  rw [kkOf_toNat, formXKK_toNat]
  omega

@[simp] theorem famOf_formXYN (f : BitVec 4) (x y : RegIdx) (n : BitVec 4) : famOf (formXYN f x y n) = f := by
  apply BitVec.eq_of_toNat_eq
  rw [famOf_toNat, formXYN_toNat]
  omega

@[simp] theorem xOf_formXYN (f : BitVec 4) (x y : RegIdx) (n : BitVec 4) : xOf (formXYN f x y n) = x := by
  apply Fin.ext
  rw [xOf_val, formXYN_toNat]
  omega

@[simp] theorem yOf_formXYN (f : BitVec 4) (x y : RegIdx) (n : BitVec 4) : yOf (formXYN f x y n) = y := by
  apply Fin.ext
  rw [yOf_val, formXYN_toNat]
  omega

@[simp] theorem nOf_formXYN (f : BitVec 4) (x y : RegIdx) (n : BitVec 4) : (nOf (formXYN f x y n)).val = n.toNat := by
  rw [nOf_val, formXYN_toNat]
  omega

/-- A word is its four nibbles. -/
theorem word_ext {v w : InstrWord} (hf : famOf v = famOf w) (hx : xOf v = xOf w) (hy : yOf v = yOf w)
    (hn : nOf v = nOf w) : v = w := by
  have h1 := congrArg BitVec.toNat hf
  have h2 := congrArg Fin.val hx
  have h3 := congrArg Fin.val hy
  have h4 := congrArg Fin.val hn
  rw [famOf_toNat, famOf_toNat] at h1
  rw [xOf_val, xOf_val] at h2
  rw [yOf_val, yOf_val] at h3
  rw [nOf_val, nOf_val] at h4
  apply BitVec.eq_of_toNat_eq
  omega

@[simp] theorem wordOfBytes_toNat (b0 b1 : Byte) : (wordOfBytes b0 b1).toNat = b0.toNat * 256 + b1.toNat :=
  append_toNat b0 b1

end Sys2Proof
end

