-- ==== Sys2Proof/Laws/Meanings.lean ====
section
/-! SUPPORT. For each meaning that does more than end the step over a register update: what it comes to on each of its
branches, so that no proof unfolds its conditions. -/

namespace Sys2Proof.Machine

variable {s : State}

theorem rangeOk_iff {a len : Nat} : rangeOk a len = true ↔ a + len ≤ 4096 := by simp [rangeOk]

theorem storeOk_allow_iff {a len : Nat} : storeOk .allow a len = true ↔ a + len ≤ 4096 := by
  simp [storeOk, rangeOk]

/-! ## Control flow -/

theorem execCall_of_room (nnn : Addr) (h : s.sp.val < 16) :
    execCall nnn s =
      jump s { s with stack := s.stack.set s.sp.val s.pc, sp := ⟨s.sp.val + 1, by omega⟩ } nnn.toNat := by
  simp [execCall, push_of_lt h]

theorem execCall_of_full (nnn : Addr) (h : s.sp.val = 16) : execCall nnn s = raise .protocolViolation s := by
  simp [execCall, push_of_full h]

theorem execRet_of_pos (h : 0 < s.sp.val) :
    execRet s = commit s { s with sp := ⟨s.sp.val - 1, by omega⟩ } ((s.stack[s.sp.val - 1]).toNat + 2) := by
  simp [execRet, pop_of_pos h]

theorem execRet_of_empty (h : s.sp.val = 0) : execRet s = raise .protocolViolation s := by
  simp [execRet, pop_of_empty h]

/-! ## Keypad -/

theorem execSkp_of_key (x : RegIdx) (h : (s.reg x).toNat < 16) :
    execSkp x s = skipIf s.keys[(s.reg x).toNat] s := by
  simp [execSkp, params, keyOf_fault_of_lt h, State.keyDown]

theorem execSkp_of_no_key (x : RegIdx) (h : 16 ≤ (s.reg x).toNat) : execSkp x s = raise .outOfBounds s := by
  simp [execSkp, params, keyOf_fault_of_le h]

theorem execSknp_of_key (x : RegIdx) (h : (s.reg x).toNat < 16) :
    execSknp x s = skipIf (!s.keys[(s.reg x).toNat]) s := by
  simp [execSknp, params, keyOf_fault_of_lt h, State.keyDown]

theorem execSknp_of_no_key (x : RegIdx) (h : 16 ≤ (s.reg x).toNat) : execSknp x s = raise .outOfBounds s := by
  simp [execSknp, params, keyOf_fault_of_le h]

theorem execLdVxK_of_idle (x : RegIdx) (h : s.waiting = false) :
    execLdVxK x s = commit s { s with waiting := true, keyValid := false } s.pc.toNat := by
  simp [execLdVxK, h]

theorem execLdVxK_of_waiting (x : RegIdx) (h : s.waiting = true) (hk : s.keyValid = false) :
    execLdVxK x s = commit s s s.pc.toNat := by
  simp [execLdVxK, h, hk]

theorem execLdVxK_of_delivered (x : RegIdx) (h : s.waiting = true) (hk : s.keyValid = true) :
    execLdVxK x s = advance s { s.setReg x s.capturedKey with waiting := false, keyValid := false } := by
  simp [execLdVxK, h, hk]

/-! ## Display -/

theorem execDrw_of_ok (x y : RegIdx) {n : Fin 16} (h : n = 0 ∨ s.i.toNat + n.val - 1 < 4096) :
    execDrw x y n s =
      advance s
        { s.setReg vf (flagByte (drawSprite s.mem s.i.toNat (originX (s.reg x)) (originY (s.reg y)) n.val
            (s.pix, false)).2) with
          pix := (drawSprite s.mem s.i.toNat (originX (s.reg x)) (originY (s.reg y)) n.val (s.pix, false)).1
          dirty := true } := by
  have : ¬(1 ≤ n.val ∧ Config.memSize ≤ s.i.toNat + n.val - 1) := by
    rcases h with rfl | h
    · simp
    · simp only [memSize_eq]; omega
  simp only [execDrw, if_neg this]

theorem execDrw_of_bad (x y : RegIdx) {n : Fin 16} (hn : n ≠ 0) (h : 4096 ≤ s.i.toNat + n.val - 1) :
    execDrw x y n s = raise .outOfBounds s := by
  have hn' : n.val ≠ 0 := fun e => hn (Fin.ext e)
  have : 1 ≤ n.val ∧ Config.memSize ≤ s.i.toNat + n.val - 1 := ⟨by omega, h⟩
  simp only [execDrw, if_pos this]

/-! ## Address register, BCD, bulk transfers -/

theorem execAddI_of_lt (x : RegIdx) (h : s.i.toNat + (s.reg x).toNat < 4096) :
    execAddI x s = advance s { s with i := BitVec.ofNat 12 (s.i.toNat + (s.reg x).toNat) } := by
  simp [execAddI, Nat.not_le.mpr h]

theorem execAddI_of_le (x : RegIdx) (h : 4096 ≤ s.i.toNat + (s.reg x).toNat) :
    execAddI x s = raise .outOfBounds s := by
  simp [execAddI, h]

theorem execLdB_of_ok (x : RegIdx) (h : s.i.toNat + 2 < 4096) :
    execLdB x s = advance s { s with mem := s.mem.writeBytes s.i.toNat (bcdDigits (s.reg x)) } := by
  simp [execLdB, params, storeOk_allow_iff, indexed, show s.i.toNat + 3 ≤ 4096 by omega]

theorem execLdB_of_bad (x : RegIdx) (h : 4096 ≤ s.i.toNat + 2) : execLdB x s = raise .outOfBounds s := by
  simp [execLdB, params, storeOk_allow_iff, indexed, show ¬(s.i.toNat + 3 ≤ 4096) by omega]

/-- The two checks of a bulk transfer, in numbers. -/
theorem bulk_checks (x : RegIdx) :
    (s.i.toNat + (x.val + 1) ≤ 4096 ∧ bulkNextI s x < 4096) ↔ s.i.toNat + x.val < 4096 ∧ bulkNextI s x < 4096 :=
  ⟨fun h => ⟨by omega, h.2⟩, fun h => ⟨by omega, h.2⟩⟩

theorem execStoreRegs_of_ok (x : RegIdx) (h : s.i.toNat + x.val < 4096) (hi : bulkNextI s x < 4096) :
    execStoreRegs x s =
      advance s { s with mem := s.mem.writeBytes s.i.toNat (regBlock s x), i := BitVec.ofNat 12 (bulkNextI s x) } := by
  simp [execStoreRegs, params, storeOk_allow_iff, indexed, hi, show s.i.toNat + (x.val + 1) ≤ 4096 by omega]

theorem execStoreRegs_of_bad (x : RegIdx) (h : 4096 ≤ s.i.toNat + x.val ∨ 4096 ≤ bulkNextI s x) :
    execStoreRegs x s = raise .outOfBounds s := by
  have : ¬(s.i.toNat + x.val < 4096 ∧ bulkNextI s x < 4096) := by omega
  simp only [execStoreRegs, params, storeOk_allow_iff, indexed, memSize_eq, Nat.add_zero, bulk_checks, this, if_false]

theorem execLoadRegs_of_ok (x : RegIdx) (h : s.i.toNat + x.val < 4096) (hi : bulkNextI s x < 4096) :
    execLoadRegs x s = advance s { s with v := loadedRegs s x, i := BitVec.ofNat 12 (bulkNextI s x) } := by
  simp [execLoadRegs, rangeOk_iff, indexed, hi, show s.i.toNat + (x.val + 1) ≤ 4096 by omega]

theorem execLoadRegs_of_bad (x : RegIdx) (h : 4096 ≤ s.i.toNat + x.val ∨ 4096 ≤ bulkNextI s x) :
    execLoadRegs x s = raise .outOfBounds s := by
  have : ¬(s.i.toNat + x.val < 4096 ∧ bulkNextI s x < 4096) := by omega
  simp only [execLoadRegs, rangeOk_iff, indexed, memSize_eq, Nat.add_zero, bulk_checks, this, if_false]

/-- A register after a bulk load. -/
theorem loadedRegs_get (x k : RegIdx) :
    (loadedRegs s x)[k.val] = if k.val ≤ x.val then s.mem.readByte (s.i.toNat + k.val) else s.reg k := by
  simp [loadedRegs, indexed, State.reg]

/-! ## What a fetch finds after a store -/

/-- A fetch below 4095 reads the word of two bytes. -/
theorem fetchWord_of_lt {m : Memory} {a : Nat} (h : a + 1 < 4096) :
    fetchWord m a = some (wordOfBytes (m.readByte a) (m.readByte (a + 1))) := by
  simp [fetchWord, h]

/-- A byte after a store from `I` on, as a number. -/
theorem readByte_store (bs : List Byte) (a : Nat) :
    ((s.mem.writeBytes s.i.toNat bs).readByte a).toNat = byteAfterStore s (bs.map BitVec.toNat) a := by
  rw [readByte_writeBytes, byteAfterStore, List.length_map]
  split
  · rw [List.getD_eq_getElem?_getD, List.getD_eq_getElem?_getD, List.getElem?_map]
    cases bs[a - s.i.toNat]? <;> simp
  · rfl

theorem regBlock_toNat (x : RegIdx) :
    (regBlock s x).map BitVec.toNat = ((List.finRange 16).take (x.val + 1)).map fun k => (s.reg k).toNat := by
  rw [regBlock, List.map_take, List.map_take]
  exact congrArg _ (List.ext_getElem (by simp) fun n _ _ => by simp [State.reg])

theorem bcdDigits_toNat (b : Byte) :
    (bcdDigits b).map BitVec.toNat = [b.toNat / 100, b.toNat / 10 % 10, b.toNat % 10] := by
  have := b.isLt
  simp only [bcdDigits, List.map_cons, List.map_nil, trunc8_toNat, List.cons.injEq, and_true]
  omega

end Sys2Proof.Machine
end

