-- ==== Sys2Proof/Laws/PerInstr.lean ====
section
/-! SUPPORT. Statements made per instruction. The family FixedBits: the encoder puts the bits that the row of
spec/opcode_table.json fixes where the row fixes them (its `mask` and `match`): the family, and the low nibble or the low
byte where the row sub-dispatches. -/

namespace Sys2Proof.Laws.FixedBits

/-- The fixed bits of the instruction's row stand in its word (R93, R95). -/
def Statement : Instr → Prop
  | .sys nnn => famOf (encode (.sys nnn)) = 0x0
  | .cls => encode .cls = 0x00E0
  | .ret => encode .ret = 0x00EE
  | .jp nnn => famOf (encode (.jp nnn)) = 0x1
  | .call nnn => famOf (encode (.call nnn)) = 0x2
  | .seImm x kk => famOf (encode (.seImm x kk)) = 0x3
  | .sneImm x kk => famOf (encode (.sneImm x kk)) = 0x4
  | .seReg x y => famOf (encode (.seReg x y)) = 0x5 ∧ (nOf (encode (.seReg x y))).val = 0x0
  | .ldImm x kk => famOf (encode (.ldImm x kk)) = 0x6
  | .addImm x kk => famOf (encode (.addImm x kk)) = 0x7
  | .ldReg x y => famOf (encode (.ldReg x y)) = 0x8 ∧ (nOf (encode (.ldReg x y))).val = 0x0
  | .orReg x y => famOf (encode (.orReg x y)) = 0x8 ∧ (nOf (encode (.orReg x y))).val = 0x1
  | .andReg x y => famOf (encode (.andReg x y)) = 0x8 ∧ (nOf (encode (.andReg x y))).val = 0x2
  | .xorReg x y => famOf (encode (.xorReg x y)) = 0x8 ∧ (nOf (encode (.xorReg x y))).val = 0x3
  | .addReg x y => famOf (encode (.addReg x y)) = 0x8 ∧ (nOf (encode (.addReg x y))).val = 0x4
  | .subReg x y => famOf (encode (.subReg x y)) = 0x8 ∧ (nOf (encode (.subReg x y))).val = 0x5
  | .shr x y => famOf (encode (.shr x y)) = 0x8 ∧ (nOf (encode (.shr x y))).val = 0x6
  | .subnReg x y => famOf (encode (.subnReg x y)) = 0x8 ∧ (nOf (encode (.subnReg x y))).val = 0x7
  | .shl x y => famOf (encode (.shl x y)) = 0x8 ∧ (nOf (encode (.shl x y))).val = 0xE
  | .sneReg x y => famOf (encode (.sneReg x y)) = 0x9 ∧ (nOf (encode (.sneReg x y))).val = 0x0
  | .ldI nnn => famOf (encode (.ldI nnn)) = 0xA
  | .jpV0 nnn => famOf (encode (.jpV0 nnn)) = 0xB
  | .rnd x kk => famOf (encode (.rnd x kk)) = 0xC
  | .drw x y n => famOf (encode (.drw x y n)) = 0xD
  | .skp x => famOf (encode (.skp x)) = 0xE ∧ kkOf (encode (.skp x)) = 0x9E
  | .sknp x => famOf (encode (.sknp x)) = 0xE ∧ kkOf (encode (.sknp x)) = 0xA1
  | .ldVxDT x => famOf (encode (.ldVxDT x)) = 0xF ∧ kkOf (encode (.ldVxDT x)) = 0x07
  | .ldVxK x => famOf (encode (.ldVxK x)) = 0xF ∧ kkOf (encode (.ldVxK x)) = 0x0A
  | .ldDTVx x => famOf (encode (.ldDTVx x)) = 0xF ∧ kkOf (encode (.ldDTVx x)) = 0x15
  | .ldSTVx x => famOf (encode (.ldSTVx x)) = 0xF ∧ kkOf (encode (.ldSTVx x)) = 0x18
  | .addI x => famOf (encode (.addI x)) = 0xF ∧ kkOf (encode (.addI x)) = 0x1E
  | .ldF x => famOf (encode (.ldF x)) = 0xF ∧ kkOf (encode (.ldF x)) = 0x29
  | .ldB x => famOf (encode (.ldB x)) = 0xF ∧ kkOf (encode (.ldB x)) = 0x33
  | .storeRegs x => famOf (encode (.storeRegs x)) = 0xF ∧ kkOf (encode (.storeRegs x)) = 0x55
  | .loadRegs x => famOf (encode (.loadRegs x)) = 0xF ∧ kkOf (encode (.loadRegs x)) = 0x65

theorem sys (nnn : Addr) : Statement (.sys nnn) := famOf_formNNN _ _

theorem cls : Statement (.cls) := rfl

theorem ret : Statement (.ret) := rfl

theorem jp (nnn : Addr) : Statement (.jp nnn) := famOf_formNNN _ _

theorem call (nnn : Addr) : Statement (.call nnn) := famOf_formNNN _ _

theorem seImm (x : RegIdx) (kk : Byte) : Statement (.seImm x kk) := famOf_formXKK _ _ _

theorem sneImm (x : RegIdx) (kk : Byte) : Statement (.sneImm x kk) := famOf_formXKK _ _ _

theorem seReg (x y : RegIdx) : Statement (.seReg x y) := ⟨famOf_formXYN _ _ _ _, nOf_formXYN _ _ _ _⟩

theorem ldImm (x : RegIdx) (kk : Byte) : Statement (.ldImm x kk) := famOf_formXKK _ _ _

theorem addImm (x : RegIdx) (kk : Byte) : Statement (.addImm x kk) := famOf_formXKK _ _ _

theorem ldReg (x y : RegIdx) : Statement (.ldReg x y) := ⟨famOf_formXYN _ _ _ _, nOf_formXYN _ _ _ _⟩

theorem orReg (x y : RegIdx) : Statement (.orReg x y) := ⟨famOf_formXYN _ _ _ _, nOf_formXYN _ _ _ _⟩

theorem andReg (x y : RegIdx) : Statement (.andReg x y) := ⟨famOf_formXYN _ _ _ _, nOf_formXYN _ _ _ _⟩

theorem xorReg (x y : RegIdx) : Statement (.xorReg x y) := ⟨famOf_formXYN _ _ _ _, nOf_formXYN _ _ _ _⟩

theorem addReg (x y : RegIdx) : Statement (.addReg x y) := ⟨famOf_formXYN _ _ _ _, nOf_formXYN _ _ _ _⟩

theorem subReg (x y : RegIdx) : Statement (.subReg x y) := ⟨famOf_formXYN _ _ _ _, nOf_formXYN _ _ _ _⟩

theorem shr (x y : RegIdx) : Statement (.shr x y) := ⟨famOf_formXYN _ _ _ _, nOf_formXYN _ _ _ _⟩

theorem subnReg (x y : RegIdx) : Statement (.subnReg x y) := ⟨famOf_formXYN _ _ _ _, nOf_formXYN _ _ _ _⟩

theorem shl (x y : RegIdx) : Statement (.shl x y) := ⟨famOf_formXYN _ _ _ _, nOf_formXYN _ _ _ _⟩

theorem sneReg (x y : RegIdx) : Statement (.sneReg x y) := ⟨famOf_formXYN _ _ _ _, nOf_formXYN _ _ _ _⟩

theorem ldI (nnn : Addr) : Statement (.ldI nnn) := famOf_formNNN _ _

theorem jpV0 (nnn : Addr) : Statement (.jpV0 nnn) := famOf_formNNN _ _

theorem rnd (x : RegIdx) (kk : Byte) : Statement (.rnd x kk) := famOf_formXKK _ _ _

theorem drw (x y : RegIdx) (n : Fin 16) : Statement (.drw x y n) := famOf_formXYN _ _ _ _

theorem skp (x : RegIdx) : Statement (.skp x) := ⟨famOf_formXKK _ _ _, kkOf_formXKK _ _ _⟩

theorem sknp (x : RegIdx) : Statement (.sknp x) := ⟨famOf_formXKK _ _ _, kkOf_formXKK _ _ _⟩

theorem ldVxDT (x : RegIdx) : Statement (.ldVxDT x) := ⟨famOf_formXKK _ _ _, kkOf_formXKK _ _ _⟩

theorem ldVxK (x : RegIdx) : Statement (.ldVxK x) := ⟨famOf_formXKK _ _ _, kkOf_formXKK _ _ _⟩

theorem ldDTVx (x : RegIdx) : Statement (.ldDTVx x) := ⟨famOf_formXKK _ _ _, kkOf_formXKK _ _ _⟩

theorem ldSTVx (x : RegIdx) : Statement (.ldSTVx x) := ⟨famOf_formXKK _ _ _, kkOf_formXKK _ _ _⟩

theorem addI (x : RegIdx) : Statement (.addI x) := ⟨famOf_formXKK _ _ _, kkOf_formXKK _ _ _⟩

theorem ldF (x : RegIdx) : Statement (.ldF x) := ⟨famOf_formXKK _ _ _, kkOf_formXKK _ _ _⟩

theorem ldB (x : RegIdx) : Statement (.ldB x) := ⟨famOf_formXKK _ _ _, kkOf_formXKK _ _ _⟩

theorem storeRegs (x : RegIdx) : Statement (.storeRegs x) := ⟨famOf_formXKK _ _ _, kkOf_formXKK _ _ _⟩

theorem loadRegs (x : RegIdx) : Statement (.loadRegs x) := ⟨famOf_formXKK _ _ _, kkOf_formXKK _ _ _⟩

end Sys2Proof.Laws.FixedBits
end

