-- ==== Sys2Proof/Tests/Slice0.lean ====
section
/-! SUPPORT. Tests. Expected values come from spec/95_test_vectors.md (the id of the vector stands in each docstring) or
from the encodings of spec/30_encoding.md. Each witness theorem shows values that meet every hypothesis of the obligation
it names, one conjunct for each clause, at the boundary of its range. -/

namespace Sys2Proof.Tests

open Sys2Proof Sys2Proof.Machine

/-! ## Small states -/

/-- Reset, with a word at an address and `PC` there. -/
def bootAt (pc : Addr) (w : Nat) : State := State.withFetchWord { State.reset with pc := pc } 16 w

/-- Reset, with a word at 0x200. -/
def boot (w : Nat) : State := bootAt 0x200 w

/-- Registers set one after another. -/
def regs (l : List (RegIdx × Byte)) (s : State) : State := l.foldl (fun s p => s.setReg p.1 p.2) s

/-- Bytes put at an address. -/
def bytes (a : Nat) (bs : List Byte) (s : State) : State := { s with mem := s.mem.writeBytes a bs }

/-- `I` set. -/
def atI (i : Addr) (s : State) : State := { s with i := i }

/-- A sprite at 0x300, `I` there. -/
def sprite (bs : List Byte) (s : State) : State := atI 0x300 (bytes 0x300 bs s)

/-- The lit pixels of a row. -/
def litIn (s : State) (y : Nat) : List Nat := (List.range 64).filter fun x => s.pix.lit x y

/-- The latch after a step. -/
def latchOf (s : State) : Bool × Cause := ((stepState s).fault, (stepState s).faultCause)

/-- `V0`, `VF` and `PC` after a step of a word of 2.1, from `V0`, `V1` and `VF`. -/
def alu (w : Nat) (v0 v1 vF : Byte) : Byte × Byte × Addr :=
  let t := stepState (regs [(0, v0), (1, v1), (15, vF)] (boot w))
  (t.reg 0, t.reg 15, t.pc)

/-! ## WellFormed: the ill-formed terms are refused, their neighbours are not -/

/-- R98: 0x00E0 and 0x00EE are not the row `0nnn`. -/
theorem test_wellFormed_refuses :
    (Instr.sys 0x0E0).wellFormed = false ∧ (Instr.sys 0x0EE).wellFormed = false ∧
    (Instr.sys 0x0E1).wellFormed = true ∧ (Instr.sys 0x1E0).wellFormed = true ∧ (Instr.sys 0xFFF).wellFormed = true := by
  decide

/-! ## Decode: words written out from the patterns of R95, every row -/

theorem test_decode_family0 :
    decodeWord 0x0123#16 = .ok (.sys 0x123) ∧ decodeWord 0x00E0#16 = .ok .cls ∧
    decodeWord 0x00EE#16 = .ok .ret ∧ decodeWord 0x01E0#16 = .ok (.sys 0x1E0) := ⟨rfl, rfl, rfl, rfl⟩

/-- `1nnn`, `2nnn`, `Annn`, `Bnnn`: 0001, 0010, 1010, 1011 and 1010 1011 1100. -/
theorem test_decode_addresses :
    decodeWord 0b0001101010111100#16 = .ok (.jp 0xABC) ∧ decodeWord 0b0010101010111100#16 = .ok (.call 0xABC) ∧
    decodeWord 0b1010101010111100#16 = .ok (.ldI 0xABC) ∧ decodeWord 0b1011101010111100#16 = .ok (.jpV0 0xABC) :=
  ⟨rfl, rfl, rfl, rfl⟩

/-- `3xkk`, `4xkk`, `6xkk`, `7xkk`, `Cxkk` with x = 1101, kk = 0100 0001. -/
theorem test_decode_bytes :
    decodeWord 0b0011110101000001#16 = .ok (.seImm 13 0x41) ∧ decodeWord 0b0100110101000001#16 = .ok (.sneImm 13 0x41) ∧
    decodeWord 0b0110110101000001#16 = .ok (.ldImm 13 0x41) ∧ decodeWord 0b0111110101000001#16 = .ok (.addImm 13 0x41) ∧
    decodeWord 0b1100110101000001#16 = .ok (.rnd 13 0x41) := ⟨rfl, rfl, rfl, rfl, rfl⟩

/-- `5xy0`, `9xy0`, `Dxyn` with x = 0011, y = 0100, n = 0101. -/
theorem test_decode_registers :
    decodeWord 0b0101001101000000#16 = .ok (.seReg 3 4) ∧ decodeWord 0b1001001101000000#16 = .ok (.sneReg 3 4) ∧
    decodeWord 0b1101001101000101#16 = .ok (.drw 3 4 5) := ⟨rfl, rfl, rfl⟩

/-- `8xy0` to `8xy7`, `8xyE` with x = 1010, y = 1011. -/
theorem test_decode_family8 :
    decodeWord 0x8AB0#16 = .ok (.ldReg 10 11) ∧ decodeWord 0x8AB1#16 = .ok (.orReg 10 11) ∧
    decodeWord 0x8AB2#16 = .ok (.andReg 10 11) ∧ decodeWord 0x8AB3#16 = .ok (.xorReg 10 11) ∧
    decodeWord 0x8AB4#16 = .ok (.addReg 10 11) ∧ decodeWord 0x8AB5#16 = .ok (.subReg 10 11) ∧
    decodeWord 0x8AB6#16 = .ok (.shr 10 11) ∧ decodeWord 0x8AB7#16 = .ok (.subnReg 10 11) ∧
    decodeWord 0x8ABE#16 = .ok (.shl 10 11) := ⟨rfl, rfl, rfl, rfl, rfl, rfl, rfl, rfl, rfl⟩

/-- `Ex9E`, `ExA1` with x = 1. -/
theorem test_decode_familyE :
    decodeWord 0b1110000110011110#16 = .ok (.skp 1) ∧ decodeWord 0b1110000110100001#16 = .ok (.sknp 1) := ⟨rfl, rfl⟩

/-- The nine rows of family F with x = 2. -/
theorem test_decode_familyF :
    decodeWord 0xF207#16 = .ok (.ldVxDT 2) ∧ decodeWord 0xF20A#16 = .ok (.ldVxK 2) ∧
    decodeWord 0xF215#16 = .ok (.ldDTVx 2) ∧ decodeWord 0xF218#16 = .ok (.ldSTVx 2) ∧
    decodeWord 0xF21E#16 = .ok (.addI 2) ∧ decodeWord 0xF229#16 = .ok (.ldF 2) ∧ decodeWord 0xF233#16 = .ok (.ldB 2) ∧
    decodeWord 0xF255#16 = .ok (.storeRegs 2) ∧ decodeWord 0xF265#16 = .ok (.loadRegs 2) :=
  ⟨rfl, rfl, rfl, rfl, rfl, rfl, rfl, rfl, rfl⟩

/-- 2.3: the words without a handler, and the field extraction check. -/
theorem test_decode_illegal :
    decodeWord 0x5341#16 = .error .family5 ∧ decodeWord 0x9341#16 = .error .family9 ∧
    decodeWord 0x8008#16 = .error .family8 ∧ decodeWord 0x800F#16 = .error .family8 ∧
    decodeWord 0xE000#16 = .error .familyE ∧ decodeWord 0xE09F#16 = .error .familyE ∧
    decodeWord 0xE1A0#16 = .error .familyE ∧ decodeWord 0xF000#16 = .error .familyF ∧
    decodeWord 0xF1FF#16 = .error .familyF ∧ decodeWord 0xF156#16 = .error .familyF ∧
    (xOf 0xD7A5, yOf 0xD7A5, nOf 0xD7A5, kkOf 0xD7A5, nnnOf 0xD7A5) = (7, 10, 5, 0xA5, 0x7A5) :=
  ⟨rfl, rfl, rfl, rfl, rfl, rfl, rfl, rfl, rfl, rfl, rfl⟩

/-- R92: the lenient decoder on the four shapes DECODE_STRICT names, and on bytes. -/
theorem test_decode_lenient_and_bytes :
    decodeWith false 0x01E0#16 = .ok .cls ∧ decodeWith false 0x0FEE#16 = .ok .ret ∧
    decodeWith false 0x5341#16 = .ok (.seReg 3 4) ∧ decodeWith false 0x9341#16 = .ok (.sneReg 3 4) ∧
    decodeBytes [0x6A, 0x02, 0x7A] = .ok (.ldImm 10 2, [0x7A]) ∧ decodeBytes [0x6A] = .error .truncated ∧
    decodeTableWord 16 0x6A02 = some (.ldImm 10 2) := ⟨rfl, rfl, rfl, rfl, rfl, rfl, rfl⟩

/-! ## Load, arithmetic, logic, shift, random (2.1) -/

/-- A1, A2 -/
theorem test_add_carry : alu 0x8014 0xFF 0x01 1 = (0x00, 1, 0x202) ∧ alu 0x8014 0xFE 0x01 1 = (0xFF, 0, 0x202) := by
  decide

/-- A31, A32: the flag wins. -/
theorem test_add_into_vf :
    (stepState (regs [(15, 0xFF), (1, 1)] (boot 0x8F14))).reg 15 = 1 ∧
    (stepState (regs [(15, 0x10), (1, 1)] (boot 0x8F14))).reg 15 = 0 := by decide

/-- A5, A6, A7 -/
theorem test_sub_borrow :
    alu 0x8015 5 7 1 = (0xFE, 0, 0x202) ∧ alu 0x8015 7 5 1 = (2, 1, 0x202) ∧ alu 0x8015 7 7 1 = (0, 1, 0x202) := by decide

/-- A9, A10 -/
theorem test_subn_borrow : alu 0x8017 5 7 1 = (2, 1, 0x202) ∧ alu 0x8017 7 5 1 = (0xFE, 0, 0x202) := by decide

/-- A12, A18 -/
theorem test_shr_source :
    alu 0x8016 0x05 0xF0 1 = (0x02, 1, 0x202) ∧
    (stepState { regs [(0, 0x05), (1, 0xF0), (15, 1)] (boot 0x8016) with shiftQuirk := true }).reg 0 = 0x78 := by decide

/-- A17, A19 -/
theorem test_shl_source :
    alu 0x801E 0xFF 0x00 1 = (0xFE, 1, 0x202) ∧
    (stepState { regs [(0, 0x02), (1, 0xF0)] (boot 0x801E) with shiftQuirk := true }).reg 0 = 0xE0 := by decide

/-- A20, A21, A22, A23: `VF` untouched. -/
theorem test_logic :
    alu 0x8011 0x0F 0xF0 1 = (0xFF, 1, 0x202) ∧ alu 0x8012 0x3C 0x0F 1 = (0x0C, 1, 0x202) ∧
    alu 0x8013 0xFF 0x0F 1 = (0xF0, 1, 0x202) ∧ alu 0x8010 0x00 0x3C 1 = (0x3C, 1, 0x202) := by decide

/-- A24, A25 -/
theorem test_immediates : alu 0x7005 0xFE 0 1 = (0x03, 1, 0x202) ∧ alu 0x6012 0xAA 0 1 = (0x12, 1, 0x202) := by decide

/-- A36, A37, with the draw left free. -/
theorem test_rnd_masks :
    (stepState (boot 0xC30F)).reg 3 = Config.randomByte 0 &&& 0x0F ∧ (stepState (boot 0xC30F)).draws = 1 := ⟨rfl, rfl⟩

/-! ## Control flow (2.2) -/

/-- The document's D1: `0nnn` raises InvalidOpcode (2.3). -/
theorem test_sys_raises : latchOf (boot 0x0123) = (true, .invalidOpcode) ∧ latchOf (boot 0x0000) = (true, .invalidOpcode) := by
  decide

/-- J1, J2, J4 -/
theorem test_jp :
    (stepState (boot 0x1ABC)).pc = 0xABC ∧ latchOf (boot 0x11FF) = (true, .outOfBounds) ∧
    (stepState (boot 0x1201)).pc = 0x201 := by decide

/-- J6 -/
theorem test_call_pushes :
    (stepState (bootAt 0x204 0x2210)).pc = 0x210 ∧ (stepState (bootAt 0x204 0x2210)).sp = 1 ∧
    (stepState (bootAt 0x204 0x2210)).stack[0] = 0x204 := by decide

/-- J8, J10: the stack is tested before the target. -/
theorem test_call_full :
    (stepState { boot 0x2300 with sp := 15 }).sp = 16 ∧ latchOf { boot 0x2300 with sp := 15 } = (false, .none) ∧
    latchOf { boot 0x2100 with sp := 16 } = (true, .protocolViolation) := by decide

/-- J17, J18 -/
theorem test_ret :
    (stepState { bootAt 0x212 0x00EE with sp := 1, stack := State.reset.stack.set 0 0x204 }).pc = 0x206 ∧
    latchOf (boot 0x00EE) = (true, .protocolViolation) := by decide

/-- J13, J14 -/
theorem test_jpV0 :
    (stepState (regs [(0, 1)] (boot 0xB1FF))).pc = 0x200 ∧
    latchOf (regs [(0, 1)] (boot 0xBFFF)) = (true, .outOfBounds) := by decide

/-- J20 to J23 -/
theorem test_skip_immediate :
    (stepState (bootAt 0x208 0x3100)).pc = 0x20C ∧ (stepState (regs [(1, 4)] (bootAt 0x208 0x3100))).pc = 0x20A ∧
    (stepState (bootAt 0x208 0x4100)).pc = 0x20A ∧ (stepState (regs [(1, 4)] (bootAt 0x208 0x4100))).pc = 0x20C := by decide

/-- J24, J25, J27, J28 -/
theorem test_skip_register :
    (stepState (regs [(3, 0x2A), (4, 0x2A)] (boot 0x5340))).pc = 0x204 ∧
    (stepState (regs [(3, 1), (4, 2)] (boot 0x5340))).pc = 0x202 ∧
    (stepState (regs [(3, 1), (4, 2)] (boot 0x9340))).pc = 0x204 ∧
    (stepState (regs [(3, 2), (4, 2)] (boot 0x9340))).pc = 0x202 := by decide

/-- E1, E2, E4, E7 -/
theorem test_pc_edge :
    (stepState (bootAt 0xFFC 0x6000)).pc = 0xFFE ∧ latchOf (bootAt 0xFFE 0x6000) = (true, .outOfBounds) ∧
    latchOf (bootAt 0xFFC 0x3000) = (true, .outOfBounds) ∧ latchOf (bootAt 0xFFE 0x0000) = (true, .invalidOpcode) := by
  decide

/-- E6, E9 -/
theorem test_fetch :
    latchOf { State.reset with pc := 0xFFF } = (true, .outOfBounds) ∧
    (stepState (stepState (bytes 0x200 [0x12, 0x03, 0xFF, 0x6A, 0x05] State.reset))).reg 10 = 5 := by decide

/-! ## Display (2.4) -/

/-- V1 -/
theorem test_cls :
    litIn (stepState { boot 0x00E0 with pix := Display.toggle blankDisplay 5 5 }) 5 = [] ∧
    (stepState (regs [(15, 7)] (boot 0x00E0))).dirty = true ∧ (stepState (regs [(15, 7)] (boot 0x00E0))).reg 15 = 7 := by
  decide

/-- V5 -/
theorem test_drw_collides :
    litIn (stepState (sprite [0xC0] { boot 0xD011 with pix := Display.toggle blankDisplay 0 0 })) 0 = [1] ∧
    (stepState (sprite [0xC0] { boot 0xD011 with pix := Display.toggle blankDisplay 0 0 })).reg 15 = 1 := by decide

/-- V7, V15 -/
theorem test_drw_clips :
    litIn (stepState (sprite [0xFF] (regs [(0, 60)] (boot 0xD011)))) 0 = [60, 61, 62, 63] ∧
    latchOf (atI 0xFFF (boot 0xD012)) = (true, .outOfBounds) := by decide

/-! ## Keypad and timers (2.5) -/

/-- K1, K6 -/
theorem test_skp :
    (stepState (regs [(1, 7)] { bootAt 0x206 0xE19E with keys := State.reset.keys.set 7 true })).pc = 0x20A ∧
    latchOf (regs [(1, 16)] (bootAt 0x206 0xE19E)) = (true, .outOfBounds) := by decide

/-- K3, K4 -/
theorem test_sknp :
    (stepState (regs [(1, 7)] (bootAt 0x206 0xE1A1))).pc = 0x20A ∧
    (stepState (regs [(1, 7)] { bootAt 0x206 0xE1A1 with keys := State.reset.keys.set 7 true })).pc = 0x208 := by decide

/-- T1, T2, T3 -/
theorem test_timers :
    (stepState { boot 0xF207 with dt := 5 }).reg 2 = 5 ∧
    ((stepState (regs [(1, 7)] (boot 0xF115))).dt, (stepState (regs [(1, 7)] (boot 0xF115))).st) = (7, 0) ∧
    ((stepState (regs [(1, 7)] (boot 0xF118))).dt, (stepState (regs [(1, 7)] (boot 0xF118))).st) = (0, 7) := by decide

/-- W2: the later delivery wins. -/
theorem test_key_wait :
    (stepState (deliverCapturedKey 12 (deliverCapturedKey 3 (stepState (boot 0xF10A))))).reg 1 = 0x0C ∧
    (stepState (deliverCapturedKey 12 (deliverCapturedKey 3 (stepState (boot 0xF10A))))).pc = 0x202 := by decide

/-- W4: the key flags do not end the wait. -/
theorem test_key_wait_blocks :
    (stepState (stepState { boot 0xF10A with keys := State.reset.keys.set 4 true })).waiting = true ∧
    (stepState (stepState { boot 0xF10A with keys := State.reset.keys.set 4 true })).pc = 0x200 := by decide

/-! ## Address register, BCD, bulk transfers (2.6) -/

/-- M1, M5, M5a -/
theorem test_index :
    (stepState (boot 0xA300)).i = 0x300 ∧ (stepState (regs [(2, 0xFF)] (atI 0xF00 (boot 0xF21E)))).i = 0xFFF ∧
    latchOf (regs [(2, 0xFF)] (atI 0xF01 (boot 0xF21E))) = (true, .outOfBounds) := by decide

/-- M6, M8 -/
theorem test_font_address :
    (stepState (regs [(0, 0x0A)] (boot 0xF029))).i = 50 ∧ (stepState (regs [(0, 0xFF)] (boot 0xF029))).i = 1275 := by decide

/-- M9, M12 -/
theorem test_bcd :
    ((stepState (regs [(3, 157)] (atI 0x300 (boot 0xF333)))).mem.readByte 0x300,
      (stepState (regs [(3, 157)] (atI 0x300 (boot 0xF333)))).mem.readByte 0x301,
      (stepState (regs [(3, 157)] (atI 0x300 (boot 0xF333)))).mem.readByte 0x302) = (1, 5, 7) ∧
    latchOf (regs [(3, 157)] (atI 0xFFE (boot 0xF333))) = (true, .outOfBounds) := by decide

/-- M13: the font region is written like any memory; bytes 3 and 4 keep the font's 90 and F0. -/
theorem test_bcd_over_font :
    ((stepState (regs [(3, 157)] (boot 0xF333))).mem.readByte 2, (stepState (regs [(3, 157)] (boot 0xF333))).mem.readByte 3,
      (stepState (regs [(3, 157)] (boot 0xF333))).mem.readByte 4) = (7, 0x90, 0xF0) := by decide

/-- M14, M15: `V3` is not stored. -/
theorem test_bulk_store :
    ((stepState (regs [(0, 1), (1, 5), (2, 7), (3, 9)] (atI 0x400 (boot 0xF255)))).mem.readByte 0x402,
      (stepState (regs [(0, 1), (1, 5), (2, 7), (3, 9)] (atI 0x400 (boot 0xF255)))).mem.readByte 0x403) = (7, 0) ∧
    (stepState { atI 0x400 (boot 0xF255) with memAccessQuirk := true }).i = 0x403 := by decide

/-- M18, M19 -/
theorem test_bulk_store_edge :
    (stepState (regs [(0, 0xAB)] (atI 0xFFF (boot 0xF055)))).mem.readByte 0xFFF = 0xAB ∧
    latchOf { atI 0xFFF (boot 0xF055) with memAccessQuirk := true } = (true, .outOfBounds) := by decide

/-- M16, M17: `V3` is not loaded. -/
theorem test_bulk_load :
    ((stepState (regs [(3, 0x99)] (sprite [1, 5, 7, 8] (boot 0xF265)))).reg 2,
      (stepState (regs [(3, 0x99)] (sprite [1, 5, 7, 8] (boot 0xF265)))).reg 3) = (7, 0x99) ∧
    (stepState { sprite [1, 5, 7, 8] (boot 0xF265) with memAccessQuirk := true }).i = 0x303 := by decide

/-- M24: the font, from address 0. -/
theorem test_bulk_load_font :
    (stepState (boot 0xFF65)).v.toList =
      [0xF0, 0x90, 0x90, 0x90, 0xF0, 0x20, 0x60, 0x20, 0x20, 0x70, 0xF0, 0x10, 0xF0, 0x80, 0xF0, 0xF0] := by decide

/-! ## Reset and host operations (2.7) -/

/-- T4, T6, W1 -/
theorem test_host_operations :
    (tickTimers { State.reset with dt := 1 }).dt = 0 ∧ (tickTimers { State.reset with dt := 255, st := 2 }).dt = 254 ∧
    (tickTimers { State.reset with dt := 255, st := 2 }).st = 1 ∧ (tickTimers State.reset).st = 0 ∧
    (deliverCapturedKey 3 State.reset).faultCause = .protocolViolation ∧
    (consumeDirtyFlag { State.reset with dirty := true }).1 = true := by decide

/-- R244 (index y * 64 + x), R249 (T6), R271 (W1). -/
theorem test_queries :
    (linearDisplay (Display.toggle blankDisplay 5 2)).findIdx id = 133 ∧
    shouldSoundTone 0 { State.reset with st := 1 } = true ∧ shouldSoundTone 0 State.reset = false ∧
    faultStatus (deliverCapturedKey 3 State.reset) = (true, 3) := by decide +kernel

/-- H3, H4, H5 -/
theorem test_construct :
    latchOf (construct 0 0 [] false false) = (true, .invalidOpcode) ∧
    (stepState (construct 0 0 [0x60] false false)).pc = 0x202 ∧
    ((construct 0 0 [] false false).mem.readByte 0, (construct 0 0 [] false false).mem.readByte 79,
      (construct 0 0 [] false false).mem.readByte 80, (construct 0 0 [] false false).mem.readByte 511) =
      (0xF0, 0x80, 0, 0) := by decide

/-! ## Witnesses: values that meet the hypotheses of each obligation, clause by clause -/

/-- A machine that waits with a delivered key: `Fx0A` at the last place it can complete from, a full stack of call sites
at both ends of their range. -/
def waitingState : State :=
  { bootAt 0xFFC 0xFF0A with
    waiting := true, keyValid := true, capturedKey := 15, sp := 16,
    stack := (Vector.replicate 16 512).set 15 4094 }

/-- A stopped machine. -/
def stopped : State := State.reset.latch .outOfBounds

/-- Reset, but for `PC`. -/
def pcAt (pc : Addr) : State := { State.reset with pc := pc }

/-- Reset, but for `SP` and every stack entry. -/
def stackOf (sp : Fin 17) (a : Addr) : State := { State.reset with sp := sp, stack := Vector.replicate 16 a }

theorem witness_DecodeOfEncodeIsIdentity : (Instr.sys 0x0E1).wellFormed = true ∧ (Instr.drw 15 15 15).wellFormed = true := by
  decide

theorem witness_EncodeOfDecodeIsIdentity :
    decodeWord 0x0000#16 = .ok (.sys 0) ∧ decodeWord 0xFF65#16 = .ok (.loadRegs 15) := ⟨rfl, rfl⟩

theorem witness_FieldsAreBitSlicesOfTheWord : (0xD7A5#16 : InstrWord) = wordOfBytes 0xD7 0xA5 := rfl

theorem witness_LenientDecodeExtendsStrict :
    famOf 0x0FEE = 0x0 ∧ famOf 0x534F = 0x5 ∧ famOf 0x934F = 0x9 ∧
    (famOf 0x8340 ≠ 0x0 ∧ famOf 0x8340 ≠ 0x5 ∧ famOf 0x8340 ≠ 0x9) ∧ decodeWith true 0x01E0 = .ok (.sys 0x1E0) :=
  ⟨rfl, rfl, rfl, by decide, rfl⟩

theorem witness_StepRunsDecodedInstruction :
    (bootAt 0xFFE 0x1200).Running ∧ (bootAt 0xFFE 0x1200).pc.toNat + 1 < 4096 ∧
    (0x1200#16).toNat = ((bootAt 0xFFE 0x1200).mem.readByte (bootAt 0xFFE 0x1200).pc.toNat).toNat * 256 +
      ((bootAt 0xFFE 0x1200).mem.readByte ((bootAt 0xFFE 0x1200).pc.toNat + 1)).toNat ∧
    decodeWord 0x1200#16 = .ok (.jp 0x200) := ⟨by decide, by decide, by decide, rfl⟩

theorem witness_StepRaisesAtFetchAndDecode :
    (pcAt 4095).Running ∧ (pcAt 4095).pc.toNat = 4095 ∧
    (bootAt 0xFFE 0x8008).Running ∧ fetchWord (bootAt 0xFFE 0x8008).mem (bootAt 0xFFE 0x8008).pc.toNat = some 0x8008#16 ∧
    decodeWord 0x8008#16 = .error .family8 := ⟨by decide, by decide, by decide, by decide, rfl⟩

theorem witness_StoppedMachineIsLeftAlone :
    stopped.fault = true ∧ (∀ rom sq mq, HostOp.deliverCapturedKey 3 ≠ .construct rom sq mq) := ⟨rfl, fun _ _ _ => nofun⟩

theorem witness_RaisedConditionStopsTheMachine :
    (boot 0x6005).Running ∧ step (boot 0x6005) = .next (stepState (boot 0x6005)) ∧ (stepState (boot 0x6005)).Running ∧
    State.reset.Running ∧ step State.reset = .next (State.reset.latch .invalidOpcode) ∧
    (∀ rom sq mq, HostOp.step ≠ .construct rom sq mq) := ⟨by decide, rfl, by decide, by decide, rfl, fun _ _ _ => nofun⟩

theorem witness_ConditionsRaisedExactlyAtTheirSites :
    State.reset.Running ∧ conditionOf (.jp 512) State.reset = .none ∧ conditionOf (.jp 511) State.reset = .outOfBounds ∧
    conditionOf .ret State.reset = .protocolViolation ∧ conditionOf (.sys 0) State.reset = .invalidOpcode := by decide

theorem witness_PlacedWordIsRunNext :
    (pcAt 4094).pc.toNat + 1 < 4096 ∧ decodeTableWord 16 0x1200 = some (.jp 0x200) := ⟨by decide, rfl⟩

/-- The invariant at a machine that waits. -/
theorem waitingState_inv : waitingState.Inv where
  memWf := by decide
  latchOk := by decide
  legal := fun _ =>
    { pcLow := by decide
      liveStack := by decide
      keyValidWaits := by decide
      capturedKeyIsKey := by decide
      waitsOnKeyWait := fun _ => ⟨0xFF0A#16, by decide, 15, rfl⟩ }

theorem witness_StepKeepsInvariant :
    waitingState.Inv ∧ step waitingState = .next (stepState waitingState) ∧ (stepState waitingState).reg 15 = 15 :=
  ⟨waitingState_inv, rfl, by decide⟩

theorem witness_HostOperationsKeepInvariant : waitingState.Inv := waitingState_inv

theorem witness_EveryHostRunStaysLegal :
    (runOps 0 [.construct [0xF1, 0x0A, 0x12, 0x02] false true, .step, .tickTimers, .deliverCapturedKey 15, .step, .step]
      State.reset).Running := by decide +kernel

theorem witness_InstructionsChangeOnlyWhatTheyWrite :
    exec (.addReg 3 4) (boot 0x8344) = .next (stepState (boot 0x8344)) ∧ (stepState (boot 0x8344)).Running ∧
    exec (.storeRegs 2) (boot 0xF255) = .next (stepState (boot 0xF255)) ∧ (stepState (boot 0xF255)).Running ∧
    exec (.ldB 2) (boot 0xF233) = .next (stepState (boot 0xF233)) ∧ (stepState (boot 0xF233)).Running ∧
    exec (.call 0x300) (boot 0x2300) = .next (stepState (boot 0x2300)) ∧ (stepState (boot 0x2300)).Running :=
  ⟨rfl, by decide, rfl, by decide, rfl, by decide, rfl, by decide⟩

theorem witness_FlagRegisterWrittenOnlyAsFlag :
    exec (.addReg 15 4) (boot 0x8F44) = .next (stepState (boot 0x8F44)) ∧ (stepState (boot 0x8F44)).Running ∧
    writesFlag (.addReg 15 4) = true ∧
    exec (.loadRegs 14) (boot 0xFE65) = .next (stepState (boot 0xFE65)) ∧ (stepState (boot 0xFE65)).Running ∧
    writesFlag (.loadRegs 14) = false ∧ 15 ∉ destRegs (.loadRegs 14) :=
  ⟨rfl, by decide, rfl, rfl, by decide, rfl, by decide⟩

theorem witness_KeysReadOnlyByKeySkips :
    (∀ x, Instr.ldVxK 1 ≠ .skp x) ∧ (∀ x, Instr.ldVxK 1 ≠ .sknp x) ∧
    exec (.ldVxK 1) (boot 0xF10A) = .next (stepState (boot 0xF10A)) := ⟨fun _ => nofun, fun _ => nofun, rfl⟩

theorem witness_SoundAndDirtyAreUnobservable : exec .cls (boot 0x00E0) = .next (stepState (boot 0x00E0)) := rfl

theorem witness_DeadStackEntriesAreUnobservable :
    (∀ k : Fin 16, k.val < (stackOf 15 0x300).sp.val →
      ((stackOf 15 0x300).stack.set 15 0x999)[k.val] = (stackOf 15 0x300).stack[k.val]) ∧
    exec (.jp 0x300) (stackOf 15 0x300) = .next { stackOf 15 0x300 with pc := 0x300 } := ⟨by decide, rfl⟩

theorem witness_JpLandsOnTarget : 512 ≤ (512#12).toNat ∧ (511#12).toNat < 512 := by decide

theorem witness_JpV0LandsOnSum :
    (512 ≤ (511#12).toNat + ((regs [(0, 1)] State.reset).reg 0).toNat ∧
      (511#12).toNat + ((regs [(0, 1)] State.reset).reg 0).toNat < 4096) ∧
    (512 ≤ (0xF00#12).toNat + ((regs [(0, 255)] State.reset).reg 0).toNat ∧
      (0xF00#12).toNat + ((regs [(0, 255)] State.reset).reg 0).toNat < 4096) ∧
    (0x1FE#12).toNat + ((regs [(0, 1)] State.reset).reg 0).toNat < 512 ∧
    4096 ≤ (0xFFF#12).toNat + ((regs [(0, 1)] State.reset).reg 0).toNat := by decide

theorem witness_CallPushesCallSite :
    ((stackOf 15 0).sp.val < 16 ∧ 512 ≤ (512#12).toNat) ∧ (stackOf 16 0).sp.val = 16 ∧
    ((stackOf 15 0).sp.val < 16 ∧ (511#12).toNat < 512) := by decide

theorem witness_RetResumesAfterCallSite :
    (0 < (stackOf 16 4093).sp.val ∧ ((stackOf 16 4093).stack[15]).toNat + 2 < 4096) ∧ State.reset.sp.val = 0 ∧
    (0 < (stackOf 1 4094).sp.val ∧ 4096 ≤ ((stackOf 1 4094).stack[0]).toNat + 2) := by decide

theorem witness_CallThenRetRoundTrip :
    (stackOf 15 0).sp.val < 16 ∧ 512 ≤ (512#12).toNat ∧ (stackOf 15 0).pc.toNat + 2 < 4096 ∧
    (pcAt 4093).sp.val < 16 ∧ (pcAt 4093).pc.toNat + 2 < 4096 := by decide

theorem witness_SkipsOnImmediate :
    (true = true ↔ (pcAt 4091).reg 0 = 0) ∧ (pcAt 4091).pc.toNat + (if true then 4 else 2) < 4096 ∧
    (false = true ↔ (pcAt 4093).reg 0 = 1) ∧ (pcAt 4093).pc.toNat + (if false then 4 else 2) < 4096 ∧
    (true = true ↔ (pcAt 4092).reg 0 ≠ 1) ∧ 4096 ≤ (pcAt 4092).pc.toNat + (if true then 4 else 2) := by decide

theorem witness_SkipsOnRegister :
    (true = true ↔ (pcAt 4091).reg 0 = (pcAt 4091).reg 1) ∧ (pcAt 4091).pc.toNat + (if true then 4 else 2) < 4096 ∧
    (false = true ↔ (pcAt 4093).reg 0 ≠ (pcAt 4093).reg 1) ∧ (pcAt 4093).pc.toNat + (if false then 4 else 2) < 4096 ∧
    4096 ≤ (pcAt 4094).pc.toNat + (if false then 4 else 2) := by decide

theorem witness_SkipsOnKey :
    (((regs [(0, 15)] (pcAt 4093)).reg 0).toNat < 16 ∧
      (regs [(0, 15)] (pcAt 4093)).pc.toNat + (if (pcAt 4093).keys[15] = true then 4 else 2) < 4096) ∧
    (((pcAt 4092).reg 0).toNat < 16 ∧ 4096 ≤ (pcAt 4092).pc.toNat + (if (pcAt 4092).keys[0] = false then 4 else 2)) ∧
    16 ≤ ((regs [(0, 16)] State.reset).reg 0).toNat := by decide

theorem witness_JumpToSelfChangesNothing :
    (boot 0x1200).Running ∧ 512 ≤ (boot 0x1200).pc.toNat ∧
    fetchWord (boot 0x1200).mem (boot 0x1200).pc.toNat = some (encode (.jp (boot 0x1200).pc)) := by decide

/-- The hypothesis of every statement about an instruction that falls through, at its last value. -/
theorem witness_fall_through : (pcAt 4093).pc.toNat + 2 < 4096 := by decide

theorem witness_LoadAndAddImmediate : (pcAt 4093).pc.toNat + 2 < 4096 := witness_fall_through

theorem witness_RegisterCopyAndLogic :
    (Instr.orReg 15 15 = .orReg 15 15 ∧ (fun a b => a || b) = (fun a b : Bool => a || b)) ∧
    (pcAt 4093).pc.toNat + 2 < 4096 := ⟨⟨rfl, rfl⟩, witness_fall_through⟩

theorem witness_AddSetsCarry : (14 : RegIdx) ≠ 15 ∧ (pcAt 4093).pc.toNat + 2 < 4096 := by decide

theorem witness_SubtractSetsNotBorrow :
    Instr.subnReg 0 1 = .subnReg 0 1 ∧ 7 = ((regs [(1, 7)] (pcAt 4093)).reg 1).toNat ∧
    0 = ((regs [(1, 7)] (pcAt 4093)).reg 0).toNat ∧ (regs [(1, 7)] (pcAt 4093)).pc.toNat + 2 < 4096 := by decide

theorem witness_ShiftsPutTheBitOutInFlag :
    5 = (if (regs [(0, 5)] (pcAt 4093)).shiftQuirk then (regs [(0, 5)] (pcAt 4093)).reg 1
      else (regs [(0, 5)] (pcAt 4093)).reg 0) ∧ (regs [(0, 5)] (pcAt 4093)).pc.toNat + 2 < 4096 := by decide

theorem witness_RandomIsOneFreshMaskedDraw :
    (pcAt 4093).pc.toNat + 2 < 4096 ∧ (0x0F : Byte).getLsbD 7 = false := by decide

theorem witness_ClearBlanksDisplay : (pcAt 4093).pc.toNat + 2 < 4096 := witness_fall_through

theorem witness_DrawXorsClippedSprite :
    ((atI 0xFFF State.reset).i.toNat + (1 : Fin 16).val - 1 < 4096 ∧ (atI 0xFFF State.reset).pc.toNat + 2 < 4096) ∧
    ((2 : Fin 16) ≠ 0 ∧ 4096 ≤ (atI 0xFFF State.reset).i.toNat + (2 : Fin 16).val - 1) := by decide

theorem witness_DrawingTwiceRestoresDisplay :
    (14 : RegIdx) ≠ 15 ∧ (0 : RegIdx) ≠ 15 ∧ (pcAt 4091).i.toNat + (15 : Fin 16).val - 1 < 4096 ∧
    (pcAt 4091).pc.toNat + 4 < 4096 := by decide

theorem witness_TimerCopies : (pcAt 4093).pc.toNat + 2 < 4096 := witness_fall_through

theorem witness_KeyWaitStateMachine :
    State.reset.waiting = false ∧
    (stepState (boot 0xF10A)).waiting = true ∧ (stepState (boot 0xF10A)).keyValid = false ∧
    waitingState.waiting = true ∧ waitingState.keyValid = true ∧ waitingState.pc.toNat + 2 < 4096 := by decide

theorem witness_KeyCaptureRoundTrip :
    (bootAt 0xFFD 0xFF0A).Running ∧ (bootAt 0xFFD 0xFF0A).waiting = false ∧ (bootAt 0xFFD 0xFF0A).pc.toNat + 2 < 4096 ∧
    fetchWord (bootAt 0xFFD 0xFF0A).mem (bootAt 0xFFD 0xFF0A).pc.toNat = some (encode (.ldVxK 15)) := by decide

theorem witness_FontAddressIsFiveTimesDigit : (pcAt 4093).pc.toNat + 2 < 4096 := witness_fall_through

theorem witness_IndexLoadAndAdd :
    ((pcAt 4093).pc.toNat + 2 < 4096 ∧
      (regs [(0, 255)] (atI 0xF00 State.reset)).i.toNat + ((regs [(0, 255)] (atI 0xF00 State.reset)).reg 0).toNat < 4096) ∧
    4096 ≤ (regs [(0, 255)] (atI 0xF01 State.reset)).i.toNat + ((regs [(0, 255)] (atI 0xF01 State.reset)).reg 0).toNat := by
  decide

theorem witness_BcdStoresThreeDigits :
    ((atI 0xFFD (pcAt 4093)).i.toNat + 2 < 4096 ∧ (atI 0xFFD (pcAt 4093)).pc.toNat + 2 < 4096) ∧
    4096 ≤ (atI 0xFFE State.reset).i.toNat + 2 := by decide

/-- M21 to M23: the last places, without and with the quirk. -/
theorem witness_BulkStoreWritesRegisterBlock :
    (4080 = (if (atI 4080 State.reset).memAccessQuirk then (atI 4080 State.reset).i.toNat + 15 + 1
        else (atI 4080 State.reset).i.toNat) ∧
      (atI 4080 State.reset).i.toNat + (15 : RegIdx).val < 4096 ∧ 4080 < 4096 ∧
      (atI 4080 State.reset).pc.toNat + 2 < 4096) ∧
    4096 ≤ (atI 4081 State.reset).i.toNat + (15 : RegIdx).val ∧
    (4096 = (if ({ atI 4080 State.reset with memAccessQuirk := true } : State).memAccessQuirk
        then (atI 4080 State.reset).i.toNat + (15 : RegIdx).val + 1 else (atI 4080 State.reset).i.toNat) ∧ 4096 ≤ 4096) := by
  decide

theorem witness_BulkLoadReadsRegisterBlock :
    (4095 = (if ({ atI 4079 State.reset with memAccessQuirk := true } : State).memAccessQuirk
        then (atI 4079 State.reset).i.toNat + (15 : RegIdx).val + 1 else (atI 4079 State.reset).i.toNat) ∧
      (atI 4079 State.reset).i.toNat + (15 : RegIdx).val < 4096 ∧ 4095 < 4096 ∧
      (atI 4079 State.reset).pc.toNat + 2 < 4096) ∧
    4096 ≤ (atI 4081 State.reset).i.toNat + (15 : RegIdx).val := by decide

theorem witness_BulkStoreThenLoadRestores :
    (atI 4080 (pcAt 4091)).memAccessQuirk = false ∧ (atI 4080 (pcAt 4091)).i.toNat + (15 : RegIdx).val < 4096 ∧
    (atI 4080 (pcAt 4091)).pc.toNat + 4 < 4096 := by decide

theorem witness_StoreIsSeenByNextFetch :
    (pcAt 4092).pc.toNat + 3 < 4096 ∧
    ((atI 4094 (pcAt 4092)).i.toNat + (1 : RegIdx).val < 4096 ∧
      (if (atI 4094 (pcAt 4092)).memAccessQuirk then (atI 4094 (pcAt 4092)).i.toNat + (1 : RegIdx).val + 1
        else (atI 4094 (pcAt 4092)).i.toNat) < 4096) ∧
    ({ atI 4093 (pcAt 4092) with memAccessQuirk := true } : State).i.toNat + (1 : RegIdx).val + 1 < 4096 ∧
    (atI 4093 (pcAt 4092)).i.toNat + 2 < 4096 := by decide

theorem witness_TickCountsTimersDown : State.reset.Running ∧ stopped.fault = true := by decide

theorem witness_DirtyFlagIsConsumedOnce : State.reset.Running ∧ stopped.fault = true := by decide

theorem witness_SetKeysReplacesAllFlags :
    State.reset.Running ∧ (List.replicate 16 true).length = 16 ∧ (List.replicate 15 true).length ≠ 16 := by decide

theorem witness_DeliveredKeyIsHeldForTheWait :
    waitingState.Running ∧ waitingState.waiting = true ∧ State.reset.Running ∧ State.reset.waiting = false := by decide

theorem witness_ToneSoundsWhileSoundTimerRuns : State.reset.Running := by decide

theorem witness_QueriesAnswerTheState :
    State.reset.Running ∧ (63 < 64 ∧ 31 < 32) ∧ State.reset.faultCause = .none ∧ stopped.faultCause = .outOfBounds ∧
    (stepState State.reset).faultCause = .invalidOpcode ∧ (deliverCapturedKey 3 State.reset).faultCause = .protocolViolation ∧
    (setKeysChecked [true] State.reset).faultCause = .inputContractViolation := by decide

theorem witness_ConstructLoadsFontAndRom :
    (List.replicate 3584 (0 : Byte)).length ≤ 3584 ∧ 3584 < (List.replicate 3585 (0 : Byte)).length := by
  rw [List.length_replicate, List.length_replicate]
  decide

end Sys2Proof.Tests
end

section
/-! The execute phase in one normal form, for all 35 instructions: if the tables of R272 to R276 give no
condition, the state is the handler's writes with the next PC; otherwise it is the latch (`exec_eq`). -/

namespace Sys2Proof.Machine

variable {s s' t : State} {i : Instr}

/-! ## The parts of the normal form -/

/-- A pending `Fx0A` takes its key: it waits and a key has been delivered (R205). -/
def keyTaken (s : State) : Bool := s.waiting && s.keyValid

/-- The registers after a bulk load, sealed: comparing two states must not unfold the sixteen reads. -/
@[irreducible] def loadedBlock (s : State) (x : RegIdx) : Vector Byte 16 := loadedRegs s x

theorem loadedBlock_eq (s : State) (x : RegIdx) : loadedBlock s x = loadedRegs s x := by rw [loadedBlock]

theorem loadedBlock_get (x k : RegIdx) :
    (loadedBlock s x)[k.val] = if k.val ≤ x.val then s.mem.readByte (s.i.toNat + k.val) else s.reg k := by
  simp only [loadedBlock_eq, loadedRegs_get]

/-- What the handler of an instruction that raises nothing writes, `PC` apart (R120, R123). -/
def effect : Instr → State → State
  | .cls, s => { s with pix := blankDisplay, dirty := true }
  | .ret, s => { s with sp := ⟨s.sp.val - 1, by omega⟩ }
  | .call _, s =>
    { s with stack := s.stack.setIfInBounds s.sp.val s.pc, sp := ⟨min (s.sp.val + 1) 16, by omega⟩ }
  | .ldImm x kk, s => s.setReg x kk
  | .addImm x kk, s => s.setReg x (sum8 (s.reg x) kk)
  | .ldReg x y, s => s.setReg x (s.reg y)
  | .orReg x y, s => s.setReg x (s.reg x ||| s.reg y)
  | .andReg x y, s => s.setReg x (s.reg x &&& s.reg y)
  | .xorReg x y, s => s.setReg x (s.reg x ^^^ s.reg y)
  | .addReg x y, s =>
    (s.setReg x (sum8 (s.reg x) (s.reg y))).setReg vf (flagByte (carryOut (s.reg x) (s.reg y)))
  | .subReg x y, s =>
    (s.setReg x (diff8 (s.reg x) (s.reg y))).setReg vf (flagByte (notBorrow (s.reg x) (s.reg y)))
  | .shr x y, s =>
    (s.setReg x (shiftRight1 (shiftSource s x y))).setReg vf (flagByte (bitOutRight (shiftSource s x y)))
  | .subnReg x y, s =>
    (s.setReg x (diff8 (s.reg y) (s.reg x))).setReg vf (flagByte (notBorrow (s.reg y) (s.reg x)))
  | .shl x y, s =>
    (s.setReg x (shiftLeft1 (shiftSource s x y))).setReg vf (flagByte (bitOutLeft (shiftSource s x y)))
  | .ldI nnn, s => { s with i := nnn }
  | .rnd x kk, s => { s.setReg x (Config.randomByte s.draws &&& kk) with draws := s.draws + 1 }
  | .drw x y n, s =>
    let k := drawSprite s.mem s.i.toNat (originX (s.reg x)) (originY (s.reg y)) n.val (s.pix, false)
    { s.setReg vf (flagByte k.2) with pix := k.1, dirty := true }
  | .ldVxDT x, s => s.setReg x s.dt
  | .ldVxK x, s =>
    { s with
      v := if keyTaken s then s.v.set x.val s.capturedKey else s.v
      waiting := !keyTaken s
      keyValid := false }
  | .ldDTVx x, s => { s with dt := s.reg x }
  | .ldSTVx x, s => { s with st := s.reg x }
  | .addI x, s => { s with i := BitVec.ofNat 12 (s.i.toNat + (s.reg x).toNat) }
  | .ldF x, s => { s with i := BitVec.ofNat 12 (5 * (s.reg x).toNat) }
  | .ldB x, s => { s with mem := s.mem.writeBytes (indexed s 0) (bcdDigits (s.reg x)) }
  | .storeRegs x, s =>
    { s with mem := s.mem.writeBytes (indexed s 0) (regBlock s x), i := BitVec.ofNat 12 (bulkNextI s x) }
  | .loadRegs x, s => { s with v := loadedBlock s x, i := BitVec.ofNat 12 (bulkNextI s x) }
  | _, s => s

/-- `next_pc` (R124, R125, R141 to R145, R205), unbounded. -/
def nextPc : Instr → State → Nat
  | .ret, s => (s.stack.toList.getD (s.sp.val - 1) 0).toNat + 2
  | .jp nnn, _ => nnn.toNat
  | .call nnn, _ => nnn.toNat
  | .jpV0 nnn, s => offsetTarget s nnn
  | .seImm x kk, s => s.pc.toNat + if s.reg x == kk then 4 else 2
  | .sneImm x kk, s => s.pc.toNat + if s.reg x != kk then 4 else 2
  | .seReg x y, s => s.pc.toNat + if s.reg x == s.reg y then 4 else 2
  | .sneReg x y, s => s.pc.toNat + if s.reg x != s.reg y then 4 else 2
  | .skp x, s => s.pc.toNat + if s.keys.toList.getD (s.reg x).toNat false then 4 else 2
  | .sknp x, s => s.pc.toNat + if !s.keys.toList.getD (s.reg x).toNat false then 4 else 2
  | .ldVxK _, s => s.pc.toNat + if keyTaken s then 2 else 0
  | _, s => s.pc.toNat + 2

/-- The state an instruction leaves when it raises nothing. -/
def completed (i : Instr) (s : State) : State := { effect i s with pc := BitVec.ofNat 12 (nextPc i s) }

/-- A step's end under a condition: the handler's state with `PC` written, or the latch. -/
def endWith (c : Cause) (s s' : State) (n : Nat) : State :=
  if c = .none then { s' with pc := BitVec.ofNat 12 n } else s.latch c

/-- The state an instruction leaves. -/
def outcome (i : Instr) (s : State) : State := endWith (conditionOf i s) s (effect i s) (nextPc i s)

/-! ## Conditions -/

@[simp] theorem pcCondition_eq_none {n : Nat} : pcCondition n = .none ↔ n < 4096 := by
  unfold pcCondition
  split <;> simp <;> omega

@[simp] theorem pcCondition_of_lt {n : Nat} (h : n < 4096) : pcCondition n = .none := pcCondition_eq_none.mpr h

@[simp] theorem pcCondition_of_le {n : Nat} (h : 4096 ≤ n) : pcCondition n = .outOfBounds := if_pos h

theorem pcCondition_skip (p : Prop) [Decidable p] {b : Bool} (h : b = true ↔ p) (n : Nat) :
    (if p then pcCondition (n + 4) else pcCondition (n + 2)) = pcCondition (n + if b then 4 else 2) := by
  by_cases hp : p <;> simp [hp, h]

theorem pcCondition_skip_unless (p : Prop) [Decidable p] {b : Bool} (h : b = true ↔ ¬p) (n : Nat) :
    (if p then pcCondition (n + 2) else pcCondition (n + 4)) = pcCondition (n + if b then 4 else 2) := by
  by_cases hp : p <;> simp [hp, h]

/-- Reading a vector through its list, as `conditionOf` does. -/
theorem toList_getD_eq_getElem {α : Type} {n k : Nat} (v : Vector α n) (h : k < n) (d : α) :
    v.toList.getD k d = v[k] := by
  simp [h]

/-! ## Each way to end a step, in the normal form -/

theorem raise_eq_outcome {c : Cause} (h : conditionOf i s = c) (hc : c ≠ .none) :
    raise c s = .next (outcome i s) := by
  simp [raise_eq, outcome, endWith, h, hc]

theorem commit_eq_endWith {c : Cause} {n : Nat} (hc : c = pcCondition n) :
    commit s s' n = .next (endWith c s s' n) := by
  subst hc
  rcases Nat.lt_or_ge n 4096 with h | h
  · simp [commit_of_lt h, endWith, h]
  · simp [commit_of_le h, endWith, h]

theorem jump_eq_endWith {c : Cause} {n : Nat} (hc : c = if n < 512 ∨ 4096 ≤ n then .outOfBounds else .none) :
    jump s s' n = .next (endWith c s s' n) := by
  subst hc
  by_cases h : n < 512 ∨ 4096 ≤ n
  · simp [jump_of_bad h, endWith, h]
  · rw [jump_of_ok (by omega) (by omega), endWith, if_neg h, if_pos rfl]

/-- An absolute target is below 4096 by its width. -/
theorem jump_condition (nnn : Addr) :
    (if nnn.toNat < 512 then Cause.outOfBounds else .none) =
      if nnn.toNat < 512 ∨ 4096 ≤ nnn.toNat then .outOfBounds else .none :=
  if_congr (by omega) rfl rfl

/-! ## The normal form of the instructions that do more than fall through -/

theorem execRet_eq (s : State) : execRet s = .next (outcome .ret s) := by
  rcases Nat.eq_zero_or_pos s.sp.val with h | h
  · rw [execRet_of_empty h]
    exact raise_eq_outcome (if_pos h) (by decide)
  · rw [execRet_of_pos h, ← toList_getD_eq_getElem s.stack (by omega) 0]
    exact commit_eq_endWith (if_neg (by omega))

theorem execCall_eq (nnn : Addr) (s : State) : execCall nnn s = .next (outcome (.call nnn) s) := by
  rcases Nat.lt_or_ge s.sp.val 16 with h | h
  · have heff : effect (.call nnn) s =
        { s with stack := s.stack.set s.sp.val s.pc, sp := ⟨s.sp.val + 1, by omega⟩ } := by
      simp [effect, Vector.setIfInBounds, Vector.set, Array.setIfInBounds, h, Nat.succ_le_of_lt h]
    rw [execCall_of_room nnn h, outcome, heff]
    exact jump_eq_endWith ((if_neg (by omega)).trans (jump_condition nnn))
  · have hfull : s.sp.val = 16 := by omega
    rw [execCall_of_full nnn hfull]
    exact raise_eq_outcome (if_pos hfull) (by decide)

theorem execSkp_eq (x : RegIdx) (s : State) : execSkp x s = .next (outcome (.skp x) s) := by
  rcases Nat.lt_or_ge (s.reg x).toNat 16 with h | h
  · rw [execSkp_of_key x h, ← toList_getD_eq_getElem s.keys h false]
    exact commit_eq_endWith ((if_neg (by omega)).trans (pcCondition_skip _ .rfl _))
  · rw [execSkp_of_no_key x h]
    exact raise_eq_outcome (if_pos h) (by decide)

theorem execSknp_eq (x : RegIdx) (s : State) : execSknp x s = .next (outcome (.sknp x) s) := by
  rcases Nat.lt_or_ge (s.reg x).toNat 16 with h | h
  · rw [execSknp_of_key x h, ← toList_getD_eq_getElem s.keys h false]
    exact commit_eq_endWith ((if_neg (by omega)).trans (pcCondition_skip_unless _ (by simp) _))
  · rw [execSknp_of_no_key x h]
    exact raise_eq_outcome (if_pos h) (by decide)

theorem execLdVxK_eq (x : RegIdx) (s : State) : execLdVxK x s = .next (outcome (.ldVxK x) s) := by
  have hend {n : Nat} (hn : nextPc (.ldVxK x) s = n) (hc : conditionOf (.ldVxK x) s = pcCondition n) :
      commit s (effect (.ldVxK x) s) n = .next (outcome (.ldVxK x) s) := hn ▸ commit_eq_endWith (hn ▸ hc)
  have hpc : pcCondition s.pc.toNat = .none := pcCondition_of_lt s.pc.isLt
  cases hw : s.waiting
  case false =>
    rw [execLdVxK_of_idle x hw, ← hend (n := s.pc.toNat)] <;>
      simp [conditionOf, effect, nextPc, keyTaken, hw, hpc]
  case true =>
    cases hk : s.keyValid
    case false =>
      have heff : effect (.ldVxK x) s = s := by
        cases s
        subst hw hk
        rfl
      rw [execLdVxK_of_waiting x hw hk, ← hend (n := s.pc.toNat), heff] <;>
        simp [conditionOf, nextPc, keyTaken, hw, hk, hpc]
    case true =>
      rw [execLdVxK_of_delivered x hw hk, ← hend (n := s.pc.toNat + 2)] <;>
        simp [advance, conditionOf, effect, nextPc, keyTaken, hw, hk]

theorem execDrw_eq (x y : RegIdx) (n : Fin 16) (s : State) :
    execDrw x y n s = .next (outcome (.drw x y n) s) := by
  by_cases h : n.val ≠ 0 ∧ 4096 ≤ s.i.toNat + n.val - 1
  · rw [execDrw_of_bad x y (fun e => h.1 (congrArg Fin.val e)) h.2]
    exact raise_eq_outcome (if_pos h) (by decide)
  · rw [execDrw_of_ok x y (by rw [Fin.ext_iff, Fin.val_zero]; omega)]
    exact commit_eq_endWith (if_neg h)

theorem execAddI_eq (x : RegIdx) (s : State) : execAddI x s = .next (outcome (.addI x) s) := by
  rcases Nat.lt_or_ge (s.i.toNat + (s.reg x).toNat) 4096 with h | h
  · rw [execAddI_of_lt x h]
    exact commit_eq_endWith (if_neg (by omega))
  · rw [execAddI_of_le x h]
    exact raise_eq_outcome (if_pos h) (by decide)

theorem execLdB_eq (x : RegIdx) (s : State) : execLdB x s = .next (outcome (.ldB x) s) := by
  rcases Nat.lt_or_ge (s.i.toNat + 2) 4096 with h | h
  · rw [execLdB_of_ok x h]
    exact commit_eq_endWith (if_neg (by omega))
  · rw [execLdB_of_bad x h]
    exact raise_eq_outcome (if_pos h) (by decide)

/-- The check of a bulk transfer as `conditionOf` writes it. -/
theorem bulk_condition_iff (x : RegIdx) :
    4096 ≤ s.i.toNat + x.val + (if s.memAccessQuirk then 1 else 0) ↔
      4096 ≤ s.i.toNat + x.val ∨ 4096 ≤ bulkNextI s x := by
  unfold bulkNextI
  split <;> omega

theorem execStoreRegs_eq (x : RegIdx) (s : State) : execStoreRegs x s = .next (outcome (.storeRegs x) s) := by
  by_cases h : 4096 ≤ s.i.toNat + x.val ∨ 4096 ≤ bulkNextI s x
  · rw [execStoreRegs_of_bad x h]
    exact raise_eq_outcome (if_pos ((bulk_condition_iff x).mpr h)) (by decide)
  · rw [execStoreRegs_of_ok x (by omega) (by omega)]
    exact commit_eq_endWith (if_neg ((bulk_condition_iff x).not.mpr h))

theorem execLoadRegs_eq (x : RegIdx) (s : State) : execLoadRegs x s = .next (outcome (.loadRegs x) s) := by
  by_cases h : 4096 ≤ s.i.toNat + x.val ∨ 4096 ≤ bulkNextI s x
  · rw [execLoadRegs_of_bad x h]
    exact raise_eq_outcome (if_pos ((bulk_condition_iff x).mpr h)) (by decide)
  · rw [execLoadRegs_of_ok x (by omega) (by omega), ← loadedBlock_eq]
    exact commit_eq_endWith (if_neg ((bulk_condition_iff x).not.mpr h))

/-! ## All instructions -/

/-- The normal form of the execute phase (R120, R126, R127, R276). -/
theorem exec_eq (i : Instr) (s : State) : exec i s = .next (outcome i s) := by
  cases i with
  | sys => exact raise_eq_outcome rfl (by decide)
  | ret => exact execRet_eq s
  | jp nnn => exact jump_eq_endWith (jump_condition nnn)
  | call nnn => exact execCall_eq nnn s
  | jpV0 => exact jump_eq_endWith rfl
  | seImm | seReg => exact commit_eq_endWith (pcCondition_skip _ beq_iff_eq _)
  | sneImm | sneReg => exact commit_eq_endWith (pcCondition_skip_unless _ bne_iff_ne _)
  | drw x y n => exact execDrw_eq x y n s
  | skp x => exact execSkp_eq x s
  | sknp x => exact execSknp_eq x s
  | ldVxK x => exact execLdVxK_eq x s
  | addI x => exact execAddI_eq x s
  | ldB x => exact execLdB_eq x s
  | storeRegs x => exact execStoreRegs_eq x s
  | loadRegs x => exact execLoadRegs_eq x s
  | _ => exact commit_eq_endWith rfl

theorem exec_next (h : exec i s = .next t) : outcome i s = t :=
  Host.Outcome.next.inj ((exec_eq i s).symm.trans h)

theorem outcome_of_none (h : conditionOf i s = .none) : outcome i s = completed i s := if_pos h

theorem outcome_of_ne_none (h : conditionOf i s ≠ .none) : outcome i s = s.latch (conditionOf i s) := if_neg h

theorem exec_of_none (h : conditionOf i s = .none) : exec i s = .next (completed i s) := by
  rw [exec_eq, outcome_of_none h]

/-- An instruction for which the tables give a condition raises it. -/
theorem raises_of_condition {c : Cause} (h : conditionOf i s = c) (hc : c ≠ .none) : Raises (exec i s) c := by
  subst h
  rw [exec_eq, outcome_of_ne_none hc]
  exact ⟨_, rfl, rfl, rfl⟩

/-- An instruction that leaves the machine running has raised nothing. -/
theorem eq_completed_of_running (h : exec i s = .next t) (ht : t.Running) :
    conditionOf i s = .none ∧ t = completed i s := by
  obtain rfl : outcome i s = t := exec_next h
  by_cases hc : conditionOf i s = .none
  · exact ⟨hc, outcome_of_none hc⟩
  · rw [outcome_of_ne_none hc] at ht
    cases ht

end Sys2Proof.Machine
end

section
/-! Frames: which parts of the state an instruction's writes leave alone, and O18, O19. -/

namespace Sys2Proof.Machine

variable {s t : State} {i : Instr} {ps : List Part}

/-! ## Frames in general -/

theorem Same.refl (p : Part) (s : State) : Same p s s := by
  cases p with
  | regs | memory => exact fun _ => rfl
  | pixels => exact fun _ _ => rfl
  | stack | quirks | latch => exact ⟨rfl, rfl⟩
  | wait => exact ⟨rfl, rfl, rfl⟩
  | _ => exact rfl

theorem onlyChanges_refl (ps : List Part) (s : State) : OnlyChanges ps s s := fun p _ => Same.refl p s

/-- A write to `PC` is seen by no other part. -/
theorem Same.setPc {p : Part} (h : Same p s t) (hp : p ≠ .pc) (n : Addr) : Same p s { t with pc := n } := by
  cases p with
  | pc => exact absurd rfl hp
  | _ => exact h

theorem OnlyChanges.setPc (h : OnlyChanges ps s t) (hpc : .pc ∈ ps) (n : Addr) :
    OnlyChanges ps s { t with pc := n } :=
  fun p hp => (h p hp).setPc (fun e => hp (e ▸ hpc)) n

/-! ## What the writes of any instruction leave alone -/

@[simp] theorem effect_pc (i : Instr) (s : State) : (effect i s).pc = s.pc := by cases i <;> rfl

@[simp] theorem effect_keys (i : Instr) (s : State) : (effect i s).keys = s.keys := by cases i <;> rfl

@[simp] theorem effect_capturedKey (i : Instr) (s : State) : (effect i s).capturedKey = s.capturedKey := by
  cases i <;> rfl

@[simp] theorem effect_shiftQuirk (i : Instr) (s : State) : (effect i s).shiftQuirk = s.shiftQuirk := by
  cases i <;> rfl

@[simp] theorem effect_memAccessQuirk (i : Instr) (s : State) :
    (effect i s).memAccessQuirk = s.memAccessQuirk := by
  cases i <;> rfl

@[simp] theorem effect_fault (i : Instr) (s : State) : (effect i s).fault = s.fault := by cases i <;> rfl

@[simp] theorem effect_faultCause (i : Instr) (s : State) : (effect i s).faultCause = s.faultCause := by
  cases i <;> rfl

/-- Only `Fx33` and `Fx55` write memory. -/
theorem effect_mem (hb : ∀ x, i ≠ .ldB x) (hr : ∀ x, i ≠ .storeRegs x) (s : State) : (effect i s).mem = s.mem := by
  cases i with
  | ldB x => exact absurd rfl (hb x)
  | storeRegs x => exact absurd rfl (hr x)
  | _ => rfl

/-- Only `Fx0A` writes the wait state. -/
theorem effect_wait (hk : ∀ x, i ≠ .ldVxK x) (s : State) :
    (effect i s).waiting = s.waiting ∧ (effect i s).keyValid = s.keyValid := by
  cases i with
  | ldVxK x => exact absurd rfl (hk x)
  | _ => exact ⟨rfl, rfl⟩

/-- `I` is written by the instructions that name it among their parts (R22); so below for the other parts. -/
theorem effect_i (h : .index ∉ writesParts i) (s : State) : (effect i s).i = s.i := by
  cases i with
  | ldI | addI | ldF | storeRegs | loadRegs => simp [writesParts] at h
  | _ => rfl

theorem effect_stack (h : .stack ∉ writesParts i) (s : State) :
    (effect i s).sp = s.sp ∧ (effect i s).stack = s.stack := by
  cases i with
  | ret | call => simp [writesParts] at h
  | _ => exact ⟨rfl, rfl⟩

theorem effect_dt (h : .delay ∉ writesParts i) (s : State) : (effect i s).dt = s.dt := by
  cases i with
  | ldDTVx => simp [writesParts] at h
  | _ => rfl

theorem effect_st (h : .sound ∉ writesParts i) (s : State) : (effect i s).st = s.st := by
  cases i with
  | ldSTVx => simp [writesParts] at h
  | _ => rfl

theorem effect_pix (h : .pixels ∉ writesParts i) (s : State) : (effect i s).pix = s.pix := by
  cases i with
  | cls | drw => simp [writesParts] at h
  | _ => rfl

theorem effect_dirty (h : .dirty ∉ writesParts i) (s : State) : (effect i s).dirty = s.dirty := by
  cases i with
  | cls | drw => simp [writesParts] at h
  | _ => rfl

theorem effect_draws (h : .random ∉ writesParts i) (s : State) : (effect i s).draws = s.draws := by
  cases i with
  | rnd => simp [writesParts] at h
  | _ => rfl

/-! ## Registers -/

theorem mem_regsUpTo {x k : RegIdx} : k ∈ regsUpTo x ↔ k.val ≤ x.val := by simp [regsUpTo]

@[simp] theorem vf_eq : vf = 15 := rfl

/-- A result and its flag change no register but `V[x]` and `VF`. -/
theorem reg_result_flag {x k : RegIdx} (hk : k ∉ [x, 15]) (s : State) (r f : Byte) :
    ((s.setReg x r).setReg vf f).reg k = s.reg k := by
  simp only [List.mem_cons, List.not_mem_nil, or_false, not_or] at hk
  simp [hk]

theorem effect_reg {k : RegIdx} (i : Instr) (s : State) (hk : k ∉ destRegs i) : (effect i s).reg k = s.reg k := by
  cases i with
  | ldImm | addImm | ldReg | orReg | andReg | xorReg | rnd | ldVxDT =>
    exact reg_setReg_of_ne _ _ _ _ (by simpa [destRegs] using hk)
  | addReg | subReg | shr | subnReg | shl => exact reg_result_flag hk ..
  | drw => exact reg_setReg_of_ne _ _ _ _ (by simpa [destRegs] using hk)
  | ldVxK x =>
    have hne : k ≠ x := by simpa [destRegs] using hk
    by_cases ht : keyTaken s
    · simpa [effect, ht, State.reg] using reg_setReg_of_ne s x k s.capturedKey hne
    · simp [effect, ht, State.reg]
  | loadRegs x => exact (loadedBlock_get x k).trans (if_neg (mem_regsUpTo.not.mp hk))
  | _ => rfl

/-- An instruction with a destination register names the registers among what it writes. -/
theorem destRegs_eq_nil (h : .regs ∉ writesParts i) : destRegs i = [] := by
  cases i with
  | ldImm | addImm | ldReg | orReg | andReg | xorReg | addReg | subReg | shr | subnReg | shl | rnd | drw | ldVxDT
  | ldVxK | loadRegs => simp [writesParts] at h
  | _ => rfl

/-- A flag writer leaves a flag in `VF` (R21). -/
theorem effect_flag (h : writesFlag i = true) (s : State) : ∃ f, (effect i s).reg 15 = flagByte f := by
  cases i with
  | addReg | subReg | shr | subnReg | shl | drw => exact ⟨_, reg_setReg_self ..⟩
  | _ => cases h

theorem flagByte_cases (f : Bool) : flagByte f = 0 ∨ flagByte f = 1 := by cases f <;> simp

/-! ## The frame of every instruction -/

theorem effect_onlyChanges (i : Instr) (s : State) : OnlyChanges (writesParts i) s (effect i s) := by
  intro p hp
  cases p with
  | regs => exact fun k => effect_reg i s (by simp [destRegs_eq_nil hp])
  | index => exact effect_i hp s
  | pc => exact effect_pc i s
  | stack => exact effect_stack hp s
  | delay => exact effect_dt hp s
  | sound => exact effect_st hp s
  | memory =>
    have hb : ∀ x, i ≠ .ldB x := fun x e => hp (by simp [e, writesParts])
    have hr : ∀ x, i ≠ .storeRegs x := fun x e => hp (by simp [e, writesParts])
    exact fun a => congrArg (·.readByte a) (effect_mem hb hr s)
  | pixels => exact fun x y => congrArg (·.lit x y) (effect_pix hp s)
  | dirty => exact effect_dirty hp s
  | keys => exact effect_keys i s
  | wait =>
    have hk : ∀ x, i ≠ .ldVxK x := fun x e => hp (by simp [e, writesParts])
    exact ⟨(effect_wait hk s).1, (effect_wait hk s).2, effect_capturedKey i s⟩
  | quirks => exact ⟨effect_shiftQuirk i s, effect_memAccessQuirk i s⟩
  | latch => exact ⟨effect_fault i s, effect_faultCause i s⟩
  | random => exact effect_draws hp s

/-- Every instruction that can end without raising writes `PC`. -/
theorem pc_mem_writesParts (h : conditionOf i s = .none) : .pc ∈ writesParts i := by
  cases i with
  | sys => cases h
  | _ => exact List.mem_cons_self

/-- An instruction that raises nothing changes only the parts its rule names. -/
theorem completed_onlyChanges (h : conditionOf i s = .none) : OnlyChanges (writesParts i) s (completed i s) :=
  (effect_onlyChanges i s).setPc (pc_mem_writesParts h) _

theorem completed_regsOnly (i : Instr) (s : State) : RegsOnly (destRegs i) s (completed i s) :=
  fun _ hk => effect_reg i s hk

/-- A block write changes no byte outside its block. -/
theorem memOnly_writeBytes {a n : Nat} {bs : List Byte} (hn : bs.length = n) (h : t.mem = s.mem.writeBytes a bs) :
    MemOnly a n s t := by
  intro b hb
  rw [h, readByte_writeBytes, if_neg (by omega)]

theorem completed_storesOnlyItsBytes (i : Instr) (s : State) : StoresOnlyItsBytes i s (completed i s) := by
  refine ⟨?_, ?_, fun hb hr a => congrArg (·.readByte a) (effect_mem hb hr s)⟩
  · rintro x rfl
    exact memOnly_writeBytes (bcdDigits_length _) rfl
  · rintro x rfl
    exact memOnly_writeBytes (regBlock_length x) rfl

theorem completed_pushesOnlyItsEntry (i : Instr) (s : State) : PushesOnlyItsEntry i s (completed i s) := by
  intro k hk
  cases i with
  | call nnn => exact Vector.getElem_setIfInBounds_ne _ (hk nnn rfl).symm
  | _ => rfl

/-- Settles O18: an instruction that raises nothing ends in its completed state, whose frame is known. -/
theorem instructionsChangeOnlyWhatTheyWrite : Obligations.InstructionsChangeOnlyWhatTheyWrite := by
  intro i s t h ht
  obtain ⟨hc, rfl⟩ := eq_completed_of_running h ht
  exact ⟨completed_onlyChanges hc, completed_regsOnly i s, completed_storesOnlyItsBytes i s,
    completed_pushesOnlyItsEntry i s⟩

/-- Settles O19: a flag writer's last register write is a flag to `VF`; any other writes only its destinations. -/
theorem flagRegisterWrittenOnlyAsFlag : Obligations.FlagRegisterWrittenOnlyAsFlag := by
  intro i s t h ht
  obtain ⟨-, rfl⟩ := eq_completed_of_running h ht
  refine ⟨fun hw => ?_, fun _ hd => completed_regsOnly i s 15 hd⟩
  obtain ⟨f, hf⟩ := effect_flag hw s
  have hreg : (completed i s).reg 15 = flagByte f := hf
  rw [hreg]
  exact flagByte_cases f

end Sys2Proof.Machine
end

section
/-! What no instruction observes: the key flags (but for the key skips), ST and DIRTY, dead stack entries.
Each part of the normal form is shown not to depend on them. O20, O21, O22. -/

namespace Sys2Proof.Machine

variable {s : State} {i : Instr}

/-! ## The key flags (R33) -/

theorem conditionOf_keys (hp : ∀ x, i ≠ .skp x) (hn : ∀ x, i ≠ .sknp x) (s : State) (ks : Vector Bool 16) :
    conditionOf i { s with keys := ks } = conditionOf i s := by
  cases i with
  | skp x => exact absurd rfl (hp x)
  | sknp x => exact absurd rfl (hn x)
  | _ => rfl

theorem nextPc_keys (hp : ∀ x, i ≠ .skp x) (hn : ∀ x, i ≠ .sknp x) (s : State) (ks : Vector Bool 16) :
    nextPc i { s with keys := ks } = nextPc i s := by
  cases i with
  | skp x => exact absurd rfl (hp x)
  | sknp x => exact absurd rfl (hn x)
  | _ => rfl

theorem effect_withKeys (i : Instr) (s : State) (ks : Vector Bool 16) :
    effect i { s with keys := ks } = { effect i s with keys := ks } := by
  cases i with
  | loadRegs => simp only [effect, loadedBlock_eq]; rfl
  | _ => rfl

/-- Settles O20: condition, writes and next PC of any other instruction are the same under any key flags. -/
theorem keysReadOnlyByKeySkips : Obligations.KeysReadOnlyByKeySkips := by
  intro i s t ks hp hn h
  obtain rfl : outcome i s = t := exec_next h
  rw [exec_eq, outcome, conditionOf_keys hp hn, nextPc_keys hp hn, effect_withKeys]
  unfold outcome endWith
  split <;> rfl

/-! ## ST and DIRTY (R28, R32) -/

theorem conditionOf_soundDirty (i : Instr) (s : State) (b : Byte) (d : Bool) :
    conditionOf i { s with st := b, dirty := d } = conditionOf i s := by
  cases i <;> rfl

theorem nextPc_soundDirty (i : Instr) (s : State) (b : Byte) (d : Bool) :
    nextPc i { s with st := b, dirty := d } = nextPc i s := by
  cases i <;> rfl

/-- What an instruction writes differs under another ST and DIRTY in nothing but those two. -/
theorem effect_soundDirty (i : Instr) (s : State) (b b' : Byte) (d d' : Bool) :
    { effect i { s with st := b, dirty := d } with st := b', dirty := d' } =
      { effect i s with st := b', dirty := d' } := by
  cases i with
  | loadRegs => simp only [effect, loadedBlock_eq]; rfl
  | _ => rfl

theorem endWith_soundDirty {c : Cause} {n : Nat} {s s' t t' : State} {b : Byte} {d : Bool}
    (hs : { s with st := b, dirty := d } = { t with st := b, dirty := d })
    (hs' : { s' with st := b, dirty := d } = { t' with st := b, dirty := d }) :
    { endWith c s s' n with st := b, dirty := d } = { endWith c t t' n with st := b, dirty := d } := by
  unfold endWith
  split
  · exact congrArg (fun u : State => { u with pc := BitVec.ofNat 12 n }) hs'
  · exact congrArg (State.latch · c) hs

/-- Settles O21: condition and next PC are the same, and the writes agree in all but ST and DIRTY. -/
theorem soundAndDirtyAreUnobservable : Obligations.SoundAndDirtyAreUnobservable := by
  intro i s t b d h
  obtain rfl : outcome i s = t := exec_next h
  refine ⟨_, exec_eq i _, ?_⟩
  rw [outcome, conditionOf_soundDirty, nextPc_soundDirty]
  exact endWith_soundDirty rfl (effect_soundDirty ..)

/-! ## Dead stack entries (R26) -/

/-- The stack `st'` has the live entries of the machine's own. -/
abbrev LiveEntriesOf (s : State) (st' : Vector Addr 16) : Prop :=
  ∀ k : Fin 16, k.val < s.sp.val → st'[k.val] = s.stack[k.val]

/-- The top of the stack is live. -/
theorem stackTop_eq {st' : Vector Addr 16} (hl : LiveEntriesOf s st') (h : s.sp.val ≠ 0) :
    st'.toList.getD (s.sp.val - 1) 0 = s.stack.toList.getD (s.sp.val - 1) 0 := by
  have hlt : s.sp.val - 1 < 16 := by omega
  rw [toList_getD_eq_getElem _ hlt, toList_getD_eq_getElem _ hlt]
  exact hl ⟨s.sp.val - 1, hlt⟩ (by simp only; omega)

theorem conditionOf_stack {st' : Vector Addr 16} (hl : LiveEntriesOf s st') (i : Instr) :
    conditionOf i { s with stack := st' } = conditionOf i s := by
  cases i with
  | ret =>
    by_cases h : s.sp.val = 0
    · simp [conditionOf, h]
    · simp only [conditionOf, stackTop_eq hl h]
  | _ => rfl

theorem nextPc_stack {st' : Vector Addr 16} (hl : LiveEntriesOf s st') (h : conditionOf i s = .none) :
    nextPc i { s with stack := st' } = nextPc i s := by
  cases i with
  | ret =>
    have hsp : s.sp.val ≠ 0 := fun e => by simp [conditionOf, e] at h
    simp only [nextPc, stackTop_eq hl hsp]
  | _ => rfl

/-- What an instruction writes differs under another stack in nothing but the stack. -/
theorem effect_withStack (i : Instr) (s : State) (st' w : Vector Addr 16) :
    { effect i { s with stack := st' } with stack := w } = { effect i s with stack := w } := by
  cases i with
  | loadRegs => simp only [effect, loadedBlock_eq]; rfl
  | _ => rfl

/-- The entries live after an instruction's writes are again the same. -/
theorem effect_liveEntries {st' : Vector Addr 16} (hl : LiveEntriesOf s st') (i : Instr) :
    LiveEntriesOf (effect i s) (effect i { s with stack := st' }).stack := by
  cases i with
  | ret => exact fun k hk => hl k (lt_of_lt_of_le hk (Nat.sub_le ..))
  | call nnn =>
    intro k hk
    have hlt : k.val < min (s.sp.val + 1) 16 := hk
    simp only [effect, Vector.getElem_setIfInBounds]
    split
    · rfl
    · exact hl k (by omega)
  | _ => exact hl

/-- Settles O22: condition, next PC and writes depend on live entries only, and the writes keep those alike. -/
theorem deadStackEntriesAreUnobservable : Obligations.DeadStackEntriesAreUnobservable := by
  intro i s t st' hl h
  obtain rfl : outcome i s = t := exec_next h
  refine ⟨_, exec_eq i _, ?_⟩
  by_cases hc : conditionOf i s = .none
  · rw [outcome_of_none hc, outcome_of_none ((conditionOf_stack hl i).trans hc), completed, nextPc_stack hl hc]
    exact ⟨congrArg (fun u : State => { u with pc := BitVec.ofNat 12 (nextPc i s) }) (effect_withStack i s st' _),
      effect_liveEntries hl i⟩
  · rw [outcome_of_ne_none hc, outcome_of_ne_none (by rwa [conditionOf_stack hl]), conditionOf_stack hl]
    exact ⟨rfl, hl⟩

end Sys2Proof.Machine
end

section
/-! The invariant is kept by every step: each clause over an instruction's completion, and all that a step can do. O14. -/

namespace Sys2Proof.Machine

variable {s t : State} {i : Instr} {w : InstrWord} {x : RegIdx}

/-! ## The word of `Fx0A` (R95, R205) -/

theorem decodeWord_encode_ldVxK (x : RegIdx) : decodeWord (encode (.ldVxK x)) = .ok (.ldVxK x) := by
  obtain ⟨hfam, hkk⟩ := Laws.FixedBits.ldVxK x
  have hx : xOf (encode (.ldVxK x)) = x := xOf_formXKK ..
  simp [decodeWord, decodeWith, decodeF, hfam, hkk, hx]

theorem decode0_ne_ldVxK {b : Bool} : decode0 b w ≠ .ldVxK x := by
  unfold decode0
  split_ifs <;> simp

theorem decode8_ne_ldVxK : decode8 w ≠ .ok (.ldVxK x) := by
  unfold decode8
  split <;> simp

theorem decodeE_ne_ldVxK : decodeE w ≠ .ok (.ldVxK x) := by
  unfold decodeE
  split <;> simp

theorem family_of_decode_ldVxK (h : decodeWord w = .ok (.ldVxK x)) :
    famOf w = 0xF ∧ decodeF w = .ok (.ldVxK x) := by
  unfold decodeWord decodeWith at h
  split at h
  case h_16 =>
    have hlt := (famOf w).isLt
    simp only [imp_false] at *
    exact ⟨BitVec.eq_of_toNat_eq (by change _ = 15; omega), h⟩
  case h_6 | h_10 => split at h <;> cases h
  all_goals simp [decode0_ne_ldVxK, decode8_ne_ldVxK, decodeE_ne_ldVxK] at h

theorem fields_of_decodeF_ldVxK (h : decodeF w = .ok (.ldVxK x)) : kkOf w = 0x0A ∧ xOf w = x := by
  unfold decodeF at h
  split at h <;> simp at h
  exact ⟨BitVec.eq_of_toNat_eq ‹_›, h⟩

/-- Only the word of `Fx0A` decodes to it. -/
theorem decodeWord_ldVxK (h : decodeWord w = .ok (.ldVxK x)) : w = encode (.ldVxK x) := by
  obtain ⟨hfam, hF⟩ := family_of_decode_ldVxK h
  obtain ⟨hkk, rfl⟩ := fields_of_decodeF_ldVxK hF
  have hfam' : w.toNat / 4096 = 15 := by rw [← famOf_toNat, hfam]; rfl
  have hkk' : w.toNat % 256 = 10 := by rw [← kkOf_toNat, hkk]; rfl
  have henc : (encode (.ldVxK (xOf w))).toNat = 15 * 4096 + w.toNat / 256 % 16 * 256 + 10 := by
    rw [← xOf_val]
    exact formXKK_toNat ..
  exact BitVec.eq_of_toNat_eq (by omega)

/-! ## The next PC (R24, R126) -/

/-- A guard that raises, written as `conditionOf` writes it: no condition means that the guard does not hold. -/
theorem none_of_guard {p : Prop} [Decidable p] {c d : Cause} (hc : c ≠ .none) (h : (if p then c else d) = .none) :
    ¬p ∧ d = .none := by
  split at h
  · exact absurd h hc
  · exact ⟨‹_›, h⟩

/-- An instruction that raises nothing goes on below 4096. -/
theorem nextPc_lt (h : conditionOf i s = .none) : nextPc i s < 4096 := by
  have fall {n : Nat} (hn : pcCondition n = .none) : n < 4096 := pcCondition_eq_none.mp hn
  cases i with
  | sys => cases h
  | jp nnn | call nnn => exact nnn.isLt
  | jpV0 nnn => exact Nat.lt_of_not_le fun hle => (none_of_guard (by decide) h).1 (.inr hle)
  | seImm | seReg => exact fall ((pcCondition_skip _ beq_iff_eq _).symm.trans h)
  | sneImm | sneReg => exact fall ((pcCondition_skip_unless _ bne_iff_ne _).symm.trans h)
  | skp => exact fall ((pcCondition_skip _ .rfl _).symm.trans (none_of_guard (by decide) h).2)
  | sknp => exact fall ((pcCondition_skip_unless _ (by simp) _).symm.trans (none_of_guard (by decide) h).2)
  | ret | drw | addI | ldB | storeRegs | loadRegs => exact fall (none_of_guard (by decide) h).2
  | ldVxK =>
    have hpc := s.pc.isLt
    by_cases ht : s.waiting = true ∧ s.keyValid = true
    · have hn := fall ((if_pos ht).symm.trans h)
      simpa [nextPc, keyTaken, ht] using hn
    · have hf : keyTaken s = false := by simpa [keyTaken] using ht
      simpa [nextPc, hf] using hpc
  | _ => exact fall h

@[simp] theorem completed_pc_toNat (h : conditionOf i s = .none) : (completed i s).pc.toNat = nextPc i s :=
  pcOf_toNat (nextPc_lt h)

/-- From a legal state no instruction goes on in the reserved region. -/
theorem nextPc_low (hs : s.Legal) (h : conditionOf i s = .none) : 512 ≤ nextPc i s := by
  cases i with
  | ret =>
    have hsp : s.sp.val ≠ 0 := (none_of_guard (by decide) h).1
    have hlt : s.sp.val - 1 < 16 := by omega
    have hlive := (hs.liveStack ⟨s.sp.val - 1, hlt⟩ (by simp only; omega)).1
    rw [nextPc, toList_getD_eq_getElem _ hlt]
    exact Nat.le_add_right_of_le hlive
  | jp => exact Nat.le_of_not_lt (none_of_guard (by decide) h).1
  | call => exact Nat.le_of_not_lt (none_of_guard (by decide) (none_of_guard (by decide) h).2).1
  | jpV0 => exact Nat.le_of_not_lt fun hlt => (none_of_guard (by decide) h).1 (.inl hlt)
  | _ => exact Nat.le_add_right_of_le hs.pcLow

/-! ## Each clause of the invariant -/

/-- A store whose guard holds keeps the canonical form. -/
theorem effect_memWf (hm : s.mem.wf = true) (h : conditionOf i s = .none) : (effect i s).mem.wf = true := by
  cases i with
  | ldB x =>
    have hi : ¬4096 ≤ s.i.toNat + 2 := (none_of_guard (by decide) h).1
    exact wf_writeBytes hm (by simp [indexed]; omega)
  | storeRegs x =>
    have hi := (none_of_guard (by decide) h).1
    exact wf_writeBytes hm (by simp [indexed, regBlock_length]; omega)
  | _ => exact hm

/-- The entry a CALL pushes is its own address, which was fetched whole. -/
theorem effect_liveStack (hs : s.Legal) (hpc : s.pc.toNat + 1 < 4096) (i : Instr) : (effect i s).LiveStackOk := by
  cases i with
  | ret => exact fun k hk => hs.liveStack k (lt_of_lt_of_le hk (Nat.sub_le ..))
  | call nnn =>
    intro k hk
    have hlt : k.val < min (s.sp.val + 1) 16 := hk
    simp only [effect, Vector.getElem_setIfInBounds]
    split
    · exact ⟨hs.pcLow, by omega⟩
    · exact hs.liveStack k (by omega)
  | _ => exact hs.liveStack

/-- A delivered key is kept only by an instruction that leaves the wait as it is. -/
theorem effect_keyValid (hv : (effect i s).keyValid = true) : s.keyValid = true ∧ (effect i s).waiting = s.waiting := by
  cases i with
  | ldVxK => cases hv
  | _ => exact ⟨hv, rfl⟩

/-- A machine waits after an instruction only if that was an `Fx0A` or it waited before. -/
theorem waiting_of_completed (hw : (completed i s).waiting = true) : (∃ x, i = .ldVxK x) ∨ s.waiting = true := by
  cases i with
  | ldVxK x => exact .inl ⟨x, rfl⟩
  | _ => exact .inr hw

/-- An `Fx0A` that leaves the machine waiting keeps `PC`. -/
theorem completed_ldVxK_pc (hw : (completed (.ldVxK x) s).waiting = true) : (completed (.ldVxK x) s).pc = s.pc := by
  have hf : keyTaken s = false := by simpa [completed, effect] using hw
  simp [completed, nextPc, hf]

/-- What a waiting machine runs is its `Fx0A`, so the word at `PC` is that one again as long as it waits. -/
theorem completed_waitsOnKeyWait (hs : s.WaitsOnKeyWait) (hf : fetchWord s.mem s.pc.toNat = some w)
    (hd : decodeWord w = .ok i) : (completed i s).WaitsOnKeyWait := by
  intro hw
  obtain ⟨x, rfl⟩ : ∃ x, i = .ldVxK x := by
    obtain hi | hwait := waiting_of_completed hw
    · exact hi
    · obtain ⟨w', hw', x, rfl⟩ := hs hwait
      obtain rfl : encode (.ldVxK x) = w := Option.some.inj (hw'.symm.trans hf)
      exact ⟨x, Except.ok.inj (hd.symm.trans (decodeWord_encode_ldVxK x))⟩
  rw [completed_ldVxK_pc hw]
  exact ⟨w, hf, x, decodeWord_ldVxK hd⟩

theorem fetchWord_eq_some {m : Memory} {a : Nat} (h : fetchWord m a = some w) : a + 1 < 4096 := by
  unfold fetchWord at h
  split at h
  · assumption
  · cases h

theorem completed_legal (hs : s.Legal) (h : conditionOf i s = .none) (hf : fetchWord s.mem s.pc.toNat = some w)
    (hd : decodeWord w = .ok i) : (completed i s).Legal where
  pcLow := (completed_pc_toNat h).symm ▸ nextPc_low hs h
  liveStack := effect_liveStack hs (fetchWord_eq_some hf) i
  keyValidWaits hv := (effect_keyValid hv).2.trans (hs.keyValidWaits (effect_keyValid hv).1)
  capturedKeyIsKey hv := (effect_capturedKey i s).symm ▸ hs.capturedKeyIsKey (effect_keyValid hv).1
  waitsOnKeyWait := completed_waitsOnKeyWait hs.waitsOnKeyWait hf hd

theorem latch_inv {c : Cause} (hm : s.mem.wf = true) (hc : c ≠ .none) : (s.latch c).Inv where
  memWf := hm
  latchOk := by simp [hc]
  legal h := by cases h

/-! ## Steps -/

/-- All that a step can do: nothing on a stopped machine, raise a condition, or complete the instruction at `PC`. -/
theorem step_cases (h : step s = .next t) :
    (s.fault = true ∧ t = s) ∨ (∃ c, c ≠ .none ∧ t = s.latch c) ∨
      ∃ w i, s.Running ∧ fetchWord s.mem s.pc.toNat = some w ∧ decodeWord w = .ok i ∧ conditionOf i s = .none ∧
        t = completed i s := by
  unfold step at h
  split at h
  next hfault => exact .inl ⟨hfault, (Host.Outcome.next.inj h).symm⟩
  next hrun =>
    split at h
    next => exact .inr (.inl ⟨.outOfBounds, by decide, (Host.Outcome.next.inj h).symm⟩)
    next w hf =>
      split at h
      next => exact .inr (.inl ⟨.invalidOpcode, by decide, (Host.Outcome.next.inj h).symm⟩)
      next i hd =>
        obtain rfl : outcome i s = t := exec_next h
        by_cases hc : conditionOf i s = .none
        · exact .inr (.inr ⟨w, i, by simpa using hrun, hf, hd, hc, outcome_of_none hc⟩)
        · exact .inr (.inl ⟨_, hc, outcome_of_ne_none hc⟩)

/-- Settles O14: each of the three things a step can do keeps the invariant. -/
theorem stepKeepsInvariant : Obligations.StepKeepsInvariant := by
  intro s t hs h
  obtain ⟨-, rfl⟩ | ⟨c, hc, rfl⟩ | ⟨w, i, hrun, hf, hd, hc, rfl⟩ := step_cases h
  · exact hs
  · exact latch_inv hs.memWf hc
  · have hfault : (completed i s).fault = s.fault := effect_fault i s
    have hcause : (completed i s).faultCause = s.faultCause := effect_faultCause i s
    exact ⟨effect_memWf hs.memWf hc, hfault ▸ hcause ▸ hs.latchOk, fun _ => completed_legal (hs.legal hrun) hc hf hd⟩

end Sys2Proof.Machine
end

section
/-! The host's operations: what each does on a running and on a stopped machine, what `construct` leaves, and
the invariant along a host's run. O15, O16, O17, O53, O54, O55, O56, O58. -/

namespace Sys2Proof.Machine

variable {s : State}

/-! ## `construct` (R241, R300) -/

section Construct

variable {k draws : Nat} {rom : List Byte} {sq mq : Bool}

theorem construct_of_le (h : rom.length ≤ 3584) :
    construct k draws rom sq mq = constructFrom { State.reset with draws := draws } rom sq mq :=
  if_neg (Nat.not_lt.mpr h)

theorem construct_of_gt (h : 3584 < rom.length) : construct k draws rom sq mq = failedConstruct k draws := if_pos h

theorem font_length : font.length = 80 := rfl

/-- Memory after `construct`: the ROM from 512, the font below 80, zero elsewhere (R43, R252). -/
theorem constructFrom_readByte (a : Nat) :
    (constructFrom { State.reset with draws := draws } rom sq mq).mem.readByte a =
      if 512 ≤ a ∧ a < 512 + rom.length then rom.getD (a - 512) 0 else font.getD a 0 := by
  have hfont : (State.reset.mem.writeBytes 0 font).readByte a = font.getD a 0 := by
    rw [readByte_writeBytes]
    split <;> rfl
  exact (readByte_writeBytes ..).trans (if_congr .rfl rfl hfont)

theorem constructFrom_memWf (h : rom.length ≤ 3584) :
    (constructFrom { State.reset with draws := draws } rom sq mq).mem.wf = true :=
  wf_writeBytes (wf_writeBytes wf_reset (by rw [font_length]; decide)) (by simp only [memSize_eq, romBase_eq]; omega)

/-- Whatever the host launches from: a machine at 512 with an empty stack that waits for nothing is legal. -/
theorem legal_of_launch (hpc : s.pc = 512) (hsp : s.sp = 0) (hw : s.waiting = false) (hv : s.keyValid = false) :
    s.Legal where
  pcLow := by simp [hpc]
  liveStack k hk := by simp [hsp] at hk
  keyValidWaits h := by simp [hv] at h
  capturedKeyIsKey h := by simp [hv] at h
  waitsOnKeyWait h := by simp [hw] at h

theorem constructFrom_inv (h : rom.length ≤ 3584) :
    (constructFrom { State.reset with draws := draws } rom sq mq).Inv where
  memWf := constructFrom_memWf h
  latchOk := by simp [constructFrom]
  legal _ := legal_of_launch rfl rfl rfl rfl

theorem failedConstruct_inv (k draws : Nat) : (failedConstruct k draws).Inv where
  memWf := wf_writeBytes wf_reset (by simp)
  latchOk := by simp [failedConstruct]
  legal h := by cases h

theorem construct_inv : (construct k draws rom sq mq).Inv := by
  rcases Nat.lt_or_ge 3584 rom.length with h | h
  · rw [construct_of_gt h]
    exact failedConstruct_inv k draws
  · rw [construct_of_le h]
    exact constructFrom_inv h

theorem constructFrom_onlyChanges :
    OnlyChanges [.memory, .quirks, .random] State.reset
      (constructFrom { State.reset with draws := draws } rom sq mq) := by
  intro p hp
  have h := Same.refl p State.reset
  cases p with
  | memory | quirks | random => simp at hp
  | _ => exact h

end Construct

/-! ## The other operations, on a running and on a stopped machine (R243 to R248, R254) -/

theorem tickTimers_of_running (h : s.Running) :
    tickTimers s = { s with dt := countDown s.dt, st := countDown s.st } := by
  simp [tickTimers, h]

theorem tickTimers_of_stopped (h : s.fault = true) : tickTimers s = s := by simp [tickTimers, h]

@[simp] theorem countDown_toNat (b : Byte) : (countDown b).toNat = b.toNat - 1 := by
  have := b.isLt
  simp only [countDown, trunc8_toNat]
  omega

theorem consumeDirtyFlag_of_running (h : s.Running) : consumeDirtyFlag s = (s.dirty, { s with dirty := false }) := by
  simp [consumeDirtyFlag, h]

theorem consumeDirtyFlag_of_stopped (h : s.fault = true) : consumeDirtyFlag s = (false, s) := by
  simp [consumeDirtyFlag, h]

theorem setKeys_of_running (flags : Vector Bool 16) (h : s.Running) : setKeys flags s = { s with keys := flags } := by
  simp [setKeys, h]

theorem setKeys_of_stopped (flags : Vector Bool 16) (h : s.fault = true) : setKeys flags s = s := by
  simp [setKeys, h]

/-- With 16 flags the software binding is the hardware binding. -/
theorem setKeysChecked_of_length {flags : List Bool} (h : flags.length = 16) :
    setKeysChecked flags s = setKeys ⟨flags.toArray, by simpa using h⟩ s := by
  simp [setKeysChecked, setKeys, h]

theorem setKeysChecked_of_bad_length {flags : List Bool} (hs : s.Running) (h : flags.length ≠ 16) :
    setKeysChecked flags s = s.latch .inputContractViolation := by
  simp [setKeysChecked, hs, h]

theorem setKeysChecked_of_stopped (flags : List Bool) (h : s.fault = true) : setKeysChecked flags s = s := by
  simp [setKeysChecked, h]

theorem deliverCapturedKey_of_waiting (key : Fin 16) (h : s.Running) (hw : s.waiting = true) :
    deliverCapturedKey key s = { s with capturedKey := trunc8 key.val, keyValid := true } := by
  simp [deliverCapturedKey, h, hw]

theorem deliverCapturedKey_of_idle (key : Fin 16) (h : s.Running) (hw : s.waiting = false) :
    deliverCapturedKey key s = s.latch .protocolViolation := by
  simp [deliverCapturedKey, h, hw]

theorem deliverCapturedKey_of_stopped (key : Fin 16) (h : s.fault = true) : deliverCapturedKey key s = s := by
  simp [deliverCapturedKey, h]

/-- A machine runs or has stopped. -/
theorem running_or_stopped (s : State) : s.Running ∨ s.fault = true := (Bool.eq_false_or_eq_true s.fault).symm

/-! ## Their frames -/

theorem tickTimers_onlyChanges (s : State) : OnlyChanges [.delay, .sound] s (tickTimers s) := by
  obtain h | h := running_or_stopped s
  · rw [tickTimers_of_running h]
    intro p hp
    have hsame := Same.refl p s
    cases p with
    | delay | sound => simp at hp
    | _ => exact hsame
  · rw [tickTimers_of_stopped h]
    exact onlyChanges_refl _ s

theorem consumeDirtyFlag_onlyChanges (s : State) : OnlyChanges [.dirty] s (consumeDirtyFlag s).2 := by
  obtain h | h := running_or_stopped s
  · rw [consumeDirtyFlag_of_running h]
    intro p hp
    have hsame := Same.refl p s
    cases p with
    | dirty => simp at hp
    | _ => exact hsame
  · rw [consumeDirtyFlag_of_stopped h]
    exact onlyChanges_refl _ s

theorem setKeys_onlyChanges (flags : Vector Bool 16) (s : State) : OnlyChanges [.keys] s (setKeys flags s) := by
  obtain h | h := running_or_stopped s
  · rw [setKeys_of_running flags h]
    intro p hp
    have hsame := Same.refl p s
    cases p with
    | keys => simp at hp
    | _ => exact hsame
  · rw [setKeys_of_stopped flags h]
    exact onlyChanges_refl _ s

theorem deliverCapturedKey_onlyChanges (key : Fin 16) (h : s.Running) (hw : s.waiting = true) :
    OnlyChanges [.wait] s (deliverCapturedKey key s) := by
  rw [deliverCapturedKey_of_waiting key h hw]
  intro p hp
  have hsame := Same.refl p s
  cases p with
  | wait => simp at hp
  | _ => exact hsame

/-! ## The invariant -/

/-- The invariant says nothing of the timers, DIRTY and the key flags. -/
theorem inv_withInputs (hs : s.Inv) (dt st : Byte) (dirty : Bool) (keys : Vector Bool 16) :
    State.Inv { s with dt := dt, st := st, dirty := dirty, keys := keys } where
  memWf := hs.memWf
  latchOk := hs.latchOk
  legal h :=
    have hl := hs.legal h
    ⟨hl.pcLow, hl.liveStack, hl.keyValidWaits, hl.capturedKeyIsKey, hl.waitsOnKeyWait⟩

theorem tickTimers_inv (hs : s.Inv) : (tickTimers s).Inv := by
  obtain h | h := running_or_stopped s
  · rw [tickTimers_of_running h]
    exact inv_withInputs hs ..
  · rwa [tickTimers_of_stopped h]

theorem consumeDirtyFlag_inv (hs : s.Inv) : (consumeDirtyFlag s).2.Inv := by
  obtain h | h := running_or_stopped s
  · rw [consumeDirtyFlag_of_running h]
    exact inv_withInputs hs ..
  · rwa [consumeDirtyFlag_of_stopped h]

theorem setKeys_inv (hs : s.Inv) (flags : Vector Bool 16) : (setKeys flags s).Inv := by
  obtain h | h := running_or_stopped s
  · rw [setKeys_of_running flags h]
    exact inv_withInputs hs ..
  · rwa [setKeys_of_stopped flags h]

theorem setKeysChecked_inv (hs : s.Inv) (flags : List Bool) : (setKeysChecked flags s).Inv := by
  obtain h | h := running_or_stopped s
  · by_cases hlen : flags.length = 16
    · rw [setKeysChecked_of_length hlen]
      exact setKeys_inv hs _
    · rw [setKeysChecked_of_bad_length h hlen]
      exact latch_inv hs.memWf (by decide)
  · rwa [setKeysChecked_of_stopped flags h]

theorem deliverCapturedKey_inv (hs : s.Inv) (key : Fin 16) : (deliverCapturedKey key s).Inv := by
  obtain h | h := running_or_stopped s
  · cases hw : s.waiting
    case false =>
      rw [deliverCapturedKey_of_idle key h hw]
      exact latch_inv hs.memWf (by decide)
    case true =>
      have hl := hs.legal h
      have hkey : (trunc8 key.val).toNat < 16 := by simp only [trunc8_toNat]; omega
      rw [deliverCapturedKey_of_waiting key h hw]
      exact ⟨hs.memWf, hs.latchOk, fun _ => ⟨hl.pcLow, hl.liveStack, fun _ => hw, fun _ => hkey, hl.waitsOnKeyWait⟩⟩
  · rwa [deliverCapturedKey_of_stopped key h]

theorem stepState_inv (hs : s.Inv) : (stepState s).Inv := by
  unfold stepState
  split
  next h => exact stepKeepsInvariant _ _ hs h
  all_goals exact hs

theorem reset_inv : State.reset.Inv where
  memWf := wf_reset
  latchOk := by decide
  legal _ := legal_of_launch rfl rfl rfl rfl

/-- Settles O15: reset is an idle machine at 512 with an empty stack. -/
theorem resetMeetsInvariant : Obligations.ResetMeetsInvariant := reset_inv

/-- Settles O16: operation by operation; the queries leave the state as it is. -/
theorem hostOperationsKeepInvariant : Obligations.HostOperationsKeepInvariant := by
  intro k op s hs
  cases op with
  | construct => exact construct_inv
  | step => exact stepState_inv hs
  | tickTimers => exact tickTimers_inv hs
  | consumeDirtyFlag => exact consumeDirtyFlag_inv hs
  | setKeys flags => exact setKeys_inv hs flags
  | setKeysChecked flags => exact setKeysChecked_inv hs flags
  | deliverCapturedKey key => exact deliverCapturedKey_inv hs key
  | readDisplay | isWaitingForKey | shouldSoundTone | faultStatus => exact hs

/-- The invariant holds along every run of the host. -/
theorem runOps_inv (k : Nat) (ops : List HostOp) (hs : s.Inv) : (runOps k ops s).Inv := by
  induction ops generalizing k s with
  | nil => exact hs
  | cons op ops ih => exact ih (k + 1) (hostOperationsKeepInvariant k op s hs)

/-- Settles O17: reset meets the invariant and every operation keeps it. -/
theorem everyHostRunStaysLegal : Obligations.EveryHostRunStaysLegal :=
  fun k ops hrun => (runOps_inv k ops reset_inv).legal hrun

/-! ## What each operation does -/

/-- Settles O53: each timer counts down on a running machine, and no tick reaches anything else. -/
theorem tickCountsTimersDown : Obligations.TickCountsTimersDown := by
  intro s
  refine ⟨fun h => ?_, tickTimers_of_stopped, tickTimers_onlyChanges s⟩
  rw [tickTimers_of_running h]
  exact ⟨countDown_toNat _, countDown_toNat _⟩

/-- A second call finds the flag cleared, or the machine stopped. -/
theorem consumeDirtyFlag_twice (s : State) : (consumeDirtyFlag (consumeDirtyFlag s).2).1 = false := by
  obtain h | h := running_or_stopped s
  · rw [consumeDirtyFlag_of_running h]
    exact congrArg Prod.fst (consumeDirtyFlag_of_running (s := { s with dirty := false }) h)
  · rw [consumeDirtyFlag_of_stopped h, consumeDirtyFlag_of_stopped h]

/-- Settles O54: the running machine clears the flag it answers, the stopped one answers false. -/
theorem dirtyFlagIsConsumedOnce : Obligations.DirtyFlagIsConsumedOnce := by
  intro s
  refine ⟨fun h => ?_, consumeDirtyFlag_twice s, consumeDirtyFlag_of_stopped, consumeDirtyFlag_onlyChanges s⟩
  rw [consumeDirtyFlag_of_running h]
  exact ⟨rfl, rfl⟩

/-- Settles O55: the software binding is the hardware binding on 16 flags, and latches on any other length. -/
theorem setKeysReplacesAllFlags : Obligations.SetKeysReplacesAllFlags := by
  intro flags s h
  constructor
  · intro hlen
    refine ⟨setKeysChecked_of_length hlen, ?_⟩
    rw [setKeysChecked_of_length hlen]
    refine ⟨?_, ?_, setKeys_onlyChanges _ s⟩ <;> rw [setKeys_of_running _ h]
    · exact h
    · exact fun _ => rfl
  · intro hlen
    rw [setKeysChecked_of_bad_length h hlen]
    exact ⟨rfl, rfl⟩

/-- Settles O56: a delivery to a waiting machine overwrites the key and nothing else, so the later one wins. -/
theorem deliveredKeyIsHeldForTheWait : Obligations.DeliveredKeyIsHeldForTheWait := by
  intro key key' s h
  constructor
  · intro hw
    have hframe := deliverCapturedKey_onlyChanges key h hw
    rw [deliverCapturedKey_of_waiting key h hw] at hframe ⊢
    refine ⟨?_, rfl, hw, hframe, ?_⟩
    · simp only [trunc8_toNat]
      omega
    · rw [deliverCapturedKey_of_waiting key' h hw]
      exact deliverCapturedKey_of_waiting (s := { s with capturedKey := _, keyValid := true }) key' h hw
  · intro hw
    rw [deliverCapturedKey_of_idle key h hw]
    exact ⟨rfl, rfl⟩

/-- Settles O58: memory by the address's region, everything else as reset; a ROM that is too long stops the machine. -/
theorem constructLoadsFontAndRom : Obligations.ConstructLoadsFontAndRom := by
  intro k draws rom sq mq
  constructor
  · intro h
    rw [construct_of_le h]
    refine ⟨rfl, rfl, rfl, rfl, rfl, rfl, fun a ha => ?_, fun j hj => ?_, fun a h80 ha => ?_, constructFrom_onlyChanges,
      constructFrom_memWf h⟩
    · rw [constructFrom_readByte, if_neg (by omega)]
    · rw [constructFrom_readByte, if_pos (by omega)]
      simp [hj]
    · rw [constructFrom_readByte, if_neg (by omega)]
      exact List.getD_eq_default _ _ (by rwa [font_length])
  · intro h
    rw [construct_of_gt h]
    exact ⟨rfl, rfl⟩

end Sys2Proof.Machine
end

section
/-! Single instructions by the normal form: no condition, so the completed state, whose frame is known. O32,
O38, O41, O44, O47, O49, O50. -/

namespace Sys2Proof.Machine

variable {s : State} {i : Instr} {x : RegIdx}

@[simp] theorem reg_completed (i : Instr) (s : State) (k : RegIdx) : (completed i s).reg k = (effect i s).reg k := rfl

/-! ## Key skips (R200, R201) -/

section KeySkip

variable {down : Bool} (hi : (i = .skp x ∧ down = true) ∨ (i = .sknp x ∧ down = false))
include hi

/-- `SKP` skips on a key that is down, `SKNP` on one that is up. -/
theorem keySkip_next (h : (s.reg x).toNat < 16) :
    nextPc i s = s.pc.toNat + (if s.keys[(s.reg x).toNat] = down then 4 else 2) ∧
      conditionOf i s = pcCondition (nextPc i s) := by
  have hge : ¬16 ≤ (s.reg x).toNat := Nat.not_le.mpr h
  obtain ⟨rfl, rfl⟩ | ⟨rfl, rfl⟩ := hi
  · exact ⟨by simp only [nextPc, toList_getD_eq_getElem _ h], (if_neg hge).trans (pcCondition_skip _ .rfl _)⟩
  · exact ⟨by simp [nextPc, h], (if_neg hge).trans (pcCondition_skip_unless _ (by simp) _)⟩

theorem keySkip_no_key (h : 16 ≤ (s.reg x).toNat) : conditionOf i s = .outOfBounds := by
  obtain ⟨rfl, -⟩ | ⟨rfl, -⟩ := hi <;> exact if_pos h

theorem keySkip_parts : writesParts i = [.pc] := by
  obtain ⟨rfl, -⟩ | ⟨rfl, -⟩ := hi <;> rfl

end KeySkip

/-- Settles O32: by whether `Vx` names a key, and whether the PC after it stays below 4096. -/
theorem skipsOnKey : Obligations.SkipsOnKey := by
  intro x s i down hi
  refine ⟨fun h hpc => ?_, fun h hpc => ?_, fun h => raises_of_condition (keySkip_no_key hi h) (by decide)⟩
  · obtain ⟨hnext, hcond⟩ := keySkip_next hi h
    have hnone : conditionOf i s = .none := by rw [hcond, hnext, pcCondition_of_lt hpc]
    exact ⟨_, exec_of_none hnone, (completed_pc_toNat hnone).trans hnext,
      keySkip_parts hi ▸ completed_onlyChanges hnone⟩
  · obtain ⟨hnext, hcond⟩ := keySkip_next hi h
    exact raises_of_condition (by rw [hcond, hnext, pcCondition_of_le hpc]) (by decide)

/-! ## Shifts (R169, R171) -/

/-- A result stands in its register unless that is `VF`. -/
theorem reg_of_result_flag (hx : x ≠ 15) (s : State) (r f : Byte) : ((s.setReg x r).setReg vf f).reg x = r := by
  simp [hx]

theorem flag_of_result_flag (s : State) (x : RegIdx) (r f : Byte) : ((s.setReg x r).setReg vf f).reg 15 = f :=
  reg_setReg_self ..

theorem flagByte_decide_toNat (p : Prop) [Decidable p] : (flagByte (decide p)).toNat = if p then 1 else 0 := by
  by_cases h : p <;> simp [h]

theorem shiftRight1_toNat (b : Byte) : (shiftRight1 b).toNat = b.toNat / 2 := by
  have := b.isLt
  simp only [shiftRight1, trunc8_toNat]
  omega

theorem shiftLeft1_toNat (b : Byte) : (shiftLeft1 b).toNat = b.toNat * 2 % 256 := trunc8_toNat _

theorem bitOutRight_toNat (b : Byte) : (flagByte (bitOutRight b)).toNat = b.toNat % 2 := by
  rw [bitOutRight, flagByte_decide_toNat]
  split <;> omega

theorem bitOutLeft_toNat (b : Byte) : (flagByte (bitOutLeft b)).toNat = b.toNat / 128 := by
  have := b.isLt
  rw [bitOutLeft, flagByte_decide_toNat]
  split <;> omega

/-- Settles O38: both shifts write a result and then the bit that was shifted out. -/
theorem shiftsPutTheBitOutInFlag : Obligations.ShiftsPutTheBitOutInFlag := by
  intro x y s src hsrc hpc
  obtain rfl : src = shiftSource s x y := hsrc
  have hr : conditionOf (.shr x y) s = .none := pcCondition_of_lt hpc
  have hl : conditionOf (.shl x y) s = .none := pcCondition_of_lt hpc
  refine ⟨⟨_, exec_of_none hr, fun hx => ?_, ?_, completed_pc_toNat hr, completed_regsOnly (.shr x y) s,
      completed_onlyChanges hr⟩, ⟨_, exec_of_none hl, fun hx => ?_, ?_, completed_pc_toNat hl,
      completed_regsOnly (.shl x y) s, completed_onlyChanges hl⟩⟩
  · rw [reg_completed, effect, reg_of_result_flag hx, shiftRight1_toNat]
  · rw [reg_completed, effect, flag_of_result_flag, bitOutRight_toNat]
  · rw [reg_completed, effect, reg_of_result_flag hx, shiftLeft1_toNat]
  · rw [reg_completed, effect, flag_of_result_flag, bitOutLeft_toNat]

/-! ## Sprites (R191) -/

theorem flagByte_eq_one {b : Bool} : flagByte b = 1 ↔ b = true := by cases b <;> simp

/-- Where a sprite turns pixels over, those it hits lit are those that are lit before and not after. -/
theorem hit_lit_iff_cleared {d d' : Display} {on : Nat → Nat → Prop}
    (h : ∀ x y, d'.lit x y = true ↔ ¬(d.lit x y = true ↔ on x y)) (x y : Nat) :
    (on x y ∧ d.lit x y = true) ↔ d.lit x y = true ∧ d'.lit x y = false := by
  rw [← Bool.not_eq_true (d'.lit x y), h, not_not]
  exact ⟨fun ⟨ho, hl⟩ => ⟨hl, iff_of_true hl ho⟩, fun ⟨hl, hiff⟩ => ⟨hiff.mp hl, hl⟩⟩

/-- Settles O41: pixels and collision as `drawSprite_spec` has them. -/
theorem drawXorsClippedSprite : Obligations.DrawXorsClippedSprite := by
  intro x y n s
  constructor
  · intro hn hpc
    have hguard : ¬(n.val ≠ 0 ∧ 4096 ≤ s.i.toNat + n.val - 1) := by
      rw [Fin.ext_iff, Fin.val_zero] at hn
      omega
    have hnone : conditionOf (.drw x y n) s = .none := (if_neg hguard).trans (pcCondition_of_lt hpc)
    obtain ⟨hpix, hcollide⟩ :=
      drawSprite_spec s.mem s.i.toNat ((s.reg x).toNat % 64) ((s.reg y).toNat % 32) n.val s.pix false
    simp only [Bool.false_eq_true, false_or, hit_lit_iff_cleared hpix] at hcollide
    obtain ⟨f, hf, hflag⟩ : ∃ f, (completed (.drw x y n) s).reg 15 = flagByte f ∧
        (f = true ↔ ∃ px py, s.pix.lit px py = true ∧ (completed (.drw x y n) s).pix.lit px py = false) :=
      ⟨_, reg_setReg_self .., hcollide⟩
    refine ⟨_, exec_of_none hnone, hpix, ?_, ?_, rfl, completed_pc_toNat hnone, completed_regsOnly (.drw x y n) s,
      completed_onlyChanges hnone⟩
    · rw [hf]
      exact (flagByte_cases f).symm
    · rw [hf, flagByte_eq_one, hflag]
  · intro hn hi
    have hguard : n.val ≠ 0 ∧ 4096 ≤ s.i.toNat + n.val - 1 := ⟨fun e => hn (Fin.ext e), hi⟩
    exact raises_of_condition (if_pos hguard) (by decide)

/-! ## The key wait (R205) -/

/-- `next_pc = PC` keeps `PC`. -/
theorem commit_same_pc (s s' : State) : commit s s' s.pc.toNat = .next { s' with pc := s.pc } := by
  rw [commit_of_lt s.pc.isLt, BitVec.ofNat_toNat, BitVec.setWidth_eq]

/-- Settles O44, by WAITING and KEY_VALID. -/
theorem keyWaitStateMachine : Obligations.KeyWaitStateMachine := by
  intro x s
  refine ⟨fun hw => ?_, fun hw hk => ?_, fun hw hk hpc => ?_⟩
  · refine ⟨_, (execLdVxK_of_idle x hw).trans (commit_same_pc ..), rfl, rfl, rfl, fun p hp => ?_⟩
    have hsame := Same.refl p s
    cases p with
    | wait => simp at hp
    | _ => exact hsame
  · exact (execLdVxK_of_waiting x hw hk).trans (commit_same_pc ..)
  · have ht : keyTaken s = true := by simp [keyTaken, hw, hk]
    have hnone : conditionOf (.ldVxK x) s = .none := (if_pos ⟨hw, hk⟩).trans (pcCondition_of_lt hpc)
    have hnext : nextPc (.ldVxK x) s = s.pc.toNat + 2 := by simp [nextPc, ht]
    refine ⟨_, exec_of_none hnone, ?_, ?_, rfl, rfl, (completed_pc_toNat hnone).trans hnext,
      completed_regsOnly (.ldVxK x) s, completed_onlyChanges hnone⟩
    · simp [completed, effect, ht, State.reg]
    · simp [completed, effect, ht]

/-! ## The address register (R220, R221) -/

/-- Settles O47: `LD I` always completes, `ADD I` iff the sum stays below 4096. -/
theorem indexLoadAndAdd : Obligations.IndexLoadAndAdd := by
  intro nnn x s
  refine ⟨fun hpc => ?_, fun hpc hi => ?_, fun hi => raises_of_condition (if_pos hi) (by decide)⟩
  · have hnone : conditionOf (.ldI nnn) s = .none := pcCondition_of_lt hpc
    exact ⟨_, exec_of_none hnone, rfl, completed_pc_toNat hnone, completed_onlyChanges hnone⟩
  · have hnone : conditionOf (.addI x) s = .none := (if_neg (Nat.not_le.mpr hi)).trans (pcCondition_of_lt hpc)
    exact ⟨_, exec_of_none hnone, pcOf_toNat hi, completed_pc_toNat hnone, completed_onlyChanges hnone⟩

/-! ## Bulk transfers (R224, R225) -/

/-- Settles O49: the block is the write of `regBlock`, and its guard is the one of the statement. -/
theorem bulkStoreWritesRegisterBlock : Obligations.BulkStoreWritesRegisterBlock := by
  intro x s next hnext
  obtain rfl : next = bulkNextI s x := hnext
  constructor
  · intro hi hb hpc
    have hguard := (bulk_condition_iff (s := s) x).not.mpr (by omega)
    have hnone : conditionOf (.storeRegs x) s = .none := (if_neg hguard).trans (pcCondition_of_lt hpc)
    have hmem : (completed (.storeRegs x) s).mem = s.mem.writeBytes s.i.toNat (regBlock s x) := rfl
    refine ⟨_, exec_of_none hnone, fun k hk => ?_, memOnly_writeBytes (regBlock_length x) hmem, pcOf_toNat hb,
      completed_pc_toNat hnone, completed_onlyChanges hnone⟩
    have hblock := regBlock_length (s := s) x
    rw [hmem, readByte_writeBytes, if_pos (by omega), Nat.add_sub_cancel_left, regBlock_getD hk]
  · exact fun h => raises_of_condition (if_pos ((bulk_condition_iff x).mpr h)) (by decide)

/-- Settles O50: each register is read from its own address or kept. -/
theorem bulkLoadReadsRegisterBlock : Obligations.BulkLoadReadsRegisterBlock := by
  intro x s next hnext
  obtain rfl : next = bulkNextI s x := hnext
  constructor
  · intro hi hb hpc
    have hguard := (bulk_condition_iff (s := s) x).not.mpr (by omega)
    have hnone : conditionOf (.loadRegs x) s = .none := (if_neg hguard).trans (pcCondition_of_lt hpc)
    exact ⟨_, exec_of_none hnone, fun k hk => (loadedBlock_get x k).trans (if_pos hk),
      completed_regsOnly (.loadRegs x) s, pcOf_toNat hb, completed_pc_toNat hnone, completed_onlyChanges hnone⟩
  · exact fun h => raises_of_condition (if_pos ((bulk_condition_iff x).mpr h)) (by decide)

end Sys2Proof.Machine
end

section
/-! What a step fetches, and what the next one fetches after a store (R63, R74, R120 to R122): a step by its fetch and
decode, a word placed at `PC`, BCD and stores into the code; the host operations' frames. O7, O8, O13, O23, O48, O52. -/

namespace Sys2Proof.Machine

variable {s t : State} {i : Instr} {w : InstrWord} {x : RegIdx}

/-! ## A step by its fetch and its decode (R120 to R122) -/

theorem step_of_decode (hrun : s.Running) (hf : fetchWord s.mem s.pc.toNat = some w) (hd : decodeWord w = .ok i) :
    step s = exec i s := by
  simp [step, hrun, hf, hd]

theorem step_of_no_word (hrun : s.Running) (hf : fetchWord s.mem s.pc.toNat = none) :
    step s = raise .outOfBounds s := by
  simp [step, hrun, hf]

theorem step_of_illegal {e : Illegal} (hrun : s.Running) (hf : fetchWord s.mem s.pc.toNat = some w)
    (hd : decodeWord w = .error e) : step s = raise .invalidOpcode s := by
  simp [step, hrun, hf, hd]

/-- No word begins at the last address (R65). -/
theorem fetchWord_of_le {m : Memory} {a : Nat} (h : 4096 ≤ a + 1) : fetchWord m a = none :=
  if_neg (Nat.not_lt.mpr h)

/-- Settles O7: the fetched word is the one of that number. -/
theorem stepRunsDecodedInstruction : Obligations.StepRunsDecodedInstruction := by
  intro s w i hrun hpc hw hd
  have hword : w = wordOfBytes (s.mem.readByte s.pc.toNat) (s.mem.readByte (s.pc.toNat + 1)) :=
    BitVec.eq_of_toNat_eq (hw.trans (wordOfBytes_toNat ..).symm)
  exact step_of_decode hrun (hword ▸ fetchWord_of_lt hpc) hd

/-- Settles O8: no word at 4095, no instruction in the word. -/
theorem stepRaisesAtFetchAndDecode : Obligations.StepRaisesAtFetchAndDecode := by
  refine ⟨fun s hrun hpc => ?_, fun s w e hrun hf hd => ?_⟩
  · rw [step_of_no_word hrun (fetchWord_of_le (by omega))]
    exact raises_raise ..
  · rw [step_of_illegal hrun hf hd]
    exact raises_raise ..

/-! ## A word placed at `PC` (R252) -/

/-- The word that the two bytes of a table word make. -/
def tableInstrWord (nbits n : Nat) : InstrWord := wordOfBytes (trunc8 (n % 2 ^ nbits / 256)) (trunc8 (n % 2 ^ nbits))

theorem decodeTableWord_eq_some {nbits n : Nat} :
    decodeTableWord nbits n = some i ↔ decodeWord (tableInstrWord nbits n) = .ok i := by
  cases hd : decodeWord (tableInstrWord nbits n) <;>
    simp_all [decodeTableWord, tableBytes, decodeBytes, tableInstrWord]

theorem fetchWord_withFetchWord (nbits n : Nat) (h : s.pc.toNat + 1 < 4096) :
    fetchWord (s.withFetchWord nbits n).mem s.pc.toNat = some (tableInstrWord nbits n) := by
  rw [fetchWord_of_lt h]
  simp [State.withFetchWord, readByte_writeBytes, tableBytes, tableInstrWord]

/-- Settles O13: the placed word is fetched, and placing it leaves the machine running. -/
theorem placedWordIsRunNext : Obligations.PlacedWordIsRunNext :=
  fun _ n _ hpc hd => step_of_decode rfl (fetchWord_withFetchWord 16 n hpc) (decodeTableWord_eq_some.mp hd)

/-! ## Stores into the code (R74, R223, R224) -/

/-- After an instruction that falls through and stores bytes from `I` on, the next fetch finds them. -/
theorem fetch_after_store {bs : List Byte} {vs : List Nat} (hvs : bs.map BitVec.toNat = vs)
    (hpc : s.pc.toNat + 3 < 4096) (hnone : conditionOf i s = .none) (hnext : nextPc i s = s.pc.toNat + 2)
    (hmem : (completed i s).mem = s.mem.writeBytes s.i.toNat bs) :
    ∃ t w, exec i s = .next t ∧ t.pc.toNat = s.pc.toNat + 2 ∧ fetchWord t.mem t.pc.toNat = some w ∧
      w.toNat = byteAfterStore s vs (s.pc.toNat + 2) * 256 + byteAfterStore s vs (s.pc.toNat + 3) := by
  subst hvs
  have htpc : (completed i s).pc.toNat = s.pc.toNat + 2 := (completed_pc_toNat hnone).trans hnext
  refine ⟨_, _, exec_of_none hnone, htpc, fetchWord_of_lt (by omega), ?_⟩
  rw [wordOfBytes_toNat, htpc, hmem, readByte_store, readByte_store]

theorem conditionOf_storeRegs_eq_none (hi : s.i.toNat + x.val < 4096) (hb : bulkNextI s x < 4096)
    (hpc : s.pc.toNat + 2 < 4096) : conditionOf (.storeRegs x) s = .none :=
  (if_neg ((bulk_condition_iff x).not.mpr (by omega))).trans (pcCondition_of_lt hpc)

theorem conditionOf_ldB_eq_none (hi : s.i.toNat + 2 < 4096) (hpc : s.pc.toNat + 2 < 4096) :
    conditionOf (.ldB x) s = .none :=
  (if_neg (Nat.not_le.mpr hi)).trans (pcCondition_of_lt hpc)

/-- Settles O52: `Fx55` stores the register block, `Fx33` the digits. -/
theorem storeIsSeenByNextFetch : Obligations.StoreIsSeenByNextFetch := by
  intro x s hpc
  refine ⟨fun hi hb => ?_, fun hi => ?_⟩
  · exact fetch_after_store (regBlock_toNat x) hpc (conditionOf_storeRegs_eq_none hi hb (by omega)) rfl rfl
  · exact fetch_after_store (bcdDigits_toNat _) hpc (conditionOf_ldB_eq_none hi (by omega)) rfl rfl

/-! ## BCD (R223) -/

/-- Settles O48: the three bytes are the digits, and their values make up `Vx`. -/
theorem bcdStoresThreeDigits : Obligations.BcdStoresThreeDigits := by
  intro x s
  refine ⟨fun hi hpc => ?_, fun hi => raises_of_condition (if_pos hi) (by decide)⟩
  have hnone : conditionOf (.ldB x) s = .none := conditionOf_ldB_eq_none hi hpc
  have hmem : (completed (.ldB x) s).mem = s.mem.writeBytes s.i.toNat (bcdDigits (s.reg x)) := rfl
  have hbyte (k : Nat) (hk : k < 3) : ((completed (.ldB x) s).mem.readByte (s.i.toNat + k)).toNat =
      [(s.reg x).toNat / 100, (s.reg x).toNat / 10 % 10, (s.reg x).toNat % 10].getD k 0 := by
    rw [hmem, readByte_store, bcdDigits_toNat, byteAfterStore, if_pos (by simpa using hk), Nat.add_sub_cancel_left]
  have h0 := hbyte 0 (by decide)
  have h1 := hbyte 1 (by decide)
  have h2 := hbyte 2 (by decide)
  simp only [Nat.add_zero, List.getD_cons_zero, List.getD_cons_succ] at h0 h1 h2
  exact ⟨_, exec_of_none hnone, by omega, by omega, by omega, memOnly_writeBytes (bcdDigits_length _) hmem,
    completed_pc_toNat hnone, completed_onlyChanges hnone⟩

/-! ## Frames of the host's operations (R240, R254) -/

theorem OnlyChanges.mono {ps qs : List Part} (h : OnlyChanges ps s t) (hsub : ps ⊆ qs) : OnlyChanges qs s t :=
  fun p hp => h p fun hmem => hp (hsub hmem)

theorem latch_onlyChanges (s : State) (c : Cause) : OnlyChanges [.latch] s (s.latch c) := by
  intro p hp
  have hsame := Same.refl p s
  cases p with
  | latch => simp at hp
  | _ => exact hsame

theorem setKeysChecked_onlyChanges (flags : List Bool) (s : State) :
    OnlyChanges [.keys, .latch] s (setKeysChecked flags s) := by
  obtain h | h := running_or_stopped s
  · by_cases hlen : flags.length = 16
    · rw [setKeysChecked_of_length hlen]
      exact (setKeys_onlyChanges _ s).mono (by simp)
    · rw [setKeysChecked_of_bad_length h hlen]
      exact (latch_onlyChanges s _).mono (by simp)
  · rw [setKeysChecked_of_stopped flags h]
    exact onlyChanges_refl _ s

/-- Whether it delivers, raises or finds the machine stopped. -/
theorem deliverCapturedKey_onlyChanges_wait_latch (key : Fin 16) (s : State) :
    OnlyChanges [.wait, .latch] s (deliverCapturedKey key s) := by
  obtain h | h := running_or_stopped s
  · cases hw : s.waiting
    case false =>
      rw [deliverCapturedKey_of_idle key h hw]
      exact (latch_onlyChanges s _).mono (by simp)
    case true => exact (deliverCapturedKey_onlyChanges key h hw).mono (by simp)
  · rw [deliverCapturedKey_of_stopped key h]
    exact onlyChanges_refl _ s

/-- Settles O23: each operation's own frame; the queries answer beside the state. -/
theorem hostOperationsTouchOnlyTheirOwnState : Obligations.HostOperationsTouchOnlyTheirOwnState := by
  intro k s
  refine ⟨tickTimers_onlyChanges s, consumeDirtyFlag_onlyChanges s, fun flags => setKeys_onlyChanges flags s,
    fun flags => setKeysChecked_onlyChanges flags s, fun key => deliverCapturedKey_onlyChanges_wait_latch key s,
    fun op hop => ?_⟩
  simp only [List.mem_cons, List.not_mem_nil, or_false] at hop
  obtain rfl | rfl | rfl | rfl := hop <;> rfl

end Sys2Proof.Machine
end

section
/-! Decoder and encoder (R91 to R99): a word is the form of its fields, the decoder by family, and what each
sub-dispatched family reads and rejects. O1 to O6 and O24. -/

namespace Sys2Proof.Machine

variable {strict : Bool} {w : InstrWord} {i : Instr} {f n : BitVec 4} {kk : Byte} {x y : RegIdx} {nnn : Addr}

/-! ## A word is the form of its fields (R91, R93) -/

/-- Settles O4: each field by its number; the two bytes are the word's high and low half. -/
theorem fieldsAreBitSlicesOfTheWord : Obligations.FieldsAreBitSlicesOfTheWord := by
  intro w b0 b1 hw
  have hbytes : w.toNat = b0.toNat * 256 + b1.toNat := hw ▸ wordOfBytes_toNat b0 b1
  rw [famOf_toNat, xOf_val, yOf_val, nnnOf_toNat, kkOf_toNat, nOf_val]
  omega

theorem formNNN_eq_iff : formNNN f nnn = w ↔ famOf w = f ∧ nnnOf w = nnn := by
  constructor
  · rintro rfl
    exact ⟨famOf_formNNN .., nnnOf_formNNN ..⟩
  · rintro ⟨rfl, rfl⟩
    apply BitVec.eq_of_toNat_eq
    rw [formNNN_toNat, famOf_toNat, nnnOf_toNat]
    omega

theorem formXKK_of_fields (hf : famOf w = f) (hkk : (kkOf w).toNat = kk.toNat) : formXKK f (xOf w) kk = w := by
  subst hf
  apply BitVec.eq_of_toNat_eq
  rw [formXKK_toNat, ← hkk, famOf_toNat, xOf_val, kkOf_toNat]
  omega

theorem formXYN_of_fields (hf : famOf w = f) (hn : (nOf w).val = n.toNat) : formXYN f (xOf w) (yOf w) n = w :=
  word_ext (by simp [hf]) (by simp) (by simp) (Fin.ext (by simp [hn]))

@[simp] theorem nOf_formXYN_regBits {k : Fin 16} : nOf (formXYN f x y (regBits k)) = k := Fin.ext (nOf_formXYN ..)

/-! ## The decoder by family (R96, R97) -/

theorem decodeWord_eq_strict (w : InstrWord) : decodeWord w = decodeWith true w := rfl

/-- The families that the decoder reads by the family alone: no sub-dispatch, and `DECODE_STRICT` has no say. By format:
`NNN`, `XKK`, `XYN`. -/
def plainFamilies : List (BitVec 4) := [0x1, 0x2, 0xA, 0xB] ++ [0x3, 0x4, 0x6, 0x7, 0xC] ++ [0xD]

theorem famOf_cases (w : InstrWord) :
    famOf w = 0x0 ∨ famOf w = 0x5 ∨ famOf w = 0x8 ∨ famOf w = 0x9 ∨ famOf w = 0xE ∨ famOf w = 0xF ∨
      famOf w ∈ plainFamilies := by
  generalize famOf w = f
  revert f
  decide

theorem ne_of_mem_plainFamilies (h : f ∈ plainFamilies) :
    f ≠ 0x5#4 ∧ f ≠ 0x8#4 ∧ f ≠ 0x9#4 ∧ f ≠ 0xE#4 ∧ f ≠ 0xF#4 := by
  revert f
  decide

theorem decodeWith_family0 (h : famOf w = 0x0) : decodeWith strict w = .ok (decode0 strict w) := by
  simp [decodeWith, h]

/-- Under `DECODE_STRICT` the words of `CLS` and `RET` are the only ones of family 0 that are not the row `SYS` (R98). -/
theorem decode0_true_sys (hcls : w ≠ 0x00E0#16) (hret : w ≠ 0x00EE#16) : decode0 true w = .sys (nnnOf w) :=
  (if_neg hcls).trans (if_neg hret)

theorem decodeWith_false_family5 (h : famOf w = 0x5) : decodeWith false w = .ok (.seReg (xOf w) (yOf w)) := by
  simp [decodeWith, h]

theorem decodeWith_true_family5 (h : famOf w = 0x5) :
    decodeWith true w = if nOf w = 0 then .ok (.seReg (xOf w) (yOf w)) else .error .family5 := by
  simp [decodeWith, h]

theorem decodeWith_family8 (h : famOf w = 0x8) : decodeWith strict w = decode8 w := by
  simp [decodeWith, h]

theorem decodeWith_false_family9 (h : famOf w = 0x9) : decodeWith false w = .ok (.sneReg (xOf w) (yOf w)) := by
  simp [decodeWith, h]

theorem decodeWith_true_family9 (h : famOf w = 0x9) :
    decodeWith true w = if nOf w = 0 then .ok (.sneReg (xOf w) (yOf w)) else .error .family9 := by
  simp [decodeWith, h]

theorem decodeWith_familyE (h : famOf w = 0xE) : decodeWith strict w = decodeE w := by
  simp [decodeWith, h]

theorem decodeWith_familyF (h : famOf w = 0xF) : decodeWith strict w = decodeF w := by
  simp [decodeWith, h]

/-- A word of a plain family is the encoding of the instruction that either decoder reads from it. -/
theorem decodeWith_plain (h : famOf w ∈ plainFamilies) :
    ∃ i, (∀ strict, decodeWith strict w = .ok i) ∧ encode i = w ∧ i.wellFormed = true := by
  simp only [plainFamilies, List.mem_append, List.mem_cons, List.not_mem_nil, or_false] at h
  have hXKK {f : BitVec 4} (hf : famOf w = f) : formXKK f (xOf w) (kkOf w) = w := formXKK_of_fields hf rfl
  obtain ((h | h | h | h) | (h | h | h | h | h)) | h := h
  · exact ⟨.jp (nnnOf w), fun _ => by simp [decodeWith, h], formNNN_eq_iff.mpr ⟨h, rfl⟩, rfl⟩
  · exact ⟨.call (nnnOf w), fun _ => by simp [decodeWith, h], formNNN_eq_iff.mpr ⟨h, rfl⟩, rfl⟩
  · exact ⟨.ldI (nnnOf w), fun _ => by simp [decodeWith, h], formNNN_eq_iff.mpr ⟨h, rfl⟩, rfl⟩
  · exact ⟨.jpV0 (nnnOf w), fun _ => by simp [decodeWith, h], formNNN_eq_iff.mpr ⟨h, rfl⟩, rfl⟩
  · exact ⟨.seImm (xOf w) (kkOf w), fun _ => by simp [decodeWith, h], hXKK h, rfl⟩
  · exact ⟨.sneImm (xOf w) (kkOf w), fun _ => by simp [decodeWith, h], hXKK h, rfl⟩
  · exact ⟨.ldImm (xOf w) (kkOf w), fun _ => by simp [decodeWith, h], hXKK h, rfl⟩
  · exact ⟨.addImm (xOf w) (kkOf w), fun _ => by simp [decodeWith, h], hXKK h, rfl⟩
  · exact ⟨.rnd (xOf w) (kkOf w), fun _ => by simp [decodeWith, h], hXKK h, rfl⟩
  · exact ⟨.drw (xOf w) (yOf w) (nOf w), fun _ => by simp [decodeWith, h], formXYN_of_fields h rfl, rfl⟩

theorem decodeWith_lenient_eq_strict (h0 : famOf w ≠ 0x0) (h5 : famOf w ≠ 0x5) (h9 : famOf w ≠ 0x9) :
    decodeWith false w = decodeWith true w := by
  obtain h | h | h | h | h | h | h := famOf_cases w
  · exact absurd h h0
  · exact absurd h h5
  · rw [decodeWith_family8 h, decodeWith_family8 h]
  · exact absurd h h9
  · rw [decodeWith_familyE h, decodeWith_familyE h]
  · rw [decodeWith_familyF h, decodeWith_familyF h]
  · obtain ⟨i, hi, -, -⟩ := decodeWith_plain h
    rw [hi, hi]

/-! ## From an instruction to its word and back (R95) -/

theorem decode0_formNNN (h : sysFieldOk true nnn = true) : decode0 true (formNNN 0x0 nnn) = .sys nnn := by
  simp only [sysFieldOk, if_true, Bool.and_eq_true, bne_iff_ne] at h
  obtain ⟨hcls, hret⟩ := h
  rw [decode0_true_sys, nnnOf_formNNN]
  · exact fun e => hcls (formNNN_eq_iff.mp e).2.symm
  · exact fun e => hret (formNNN_eq_iff.mp e).2.symm

/-- Settles O1: by instruction, grouped by family; the sub-selector in the word picks the row. -/
theorem decodeOfEncodeIsIdentity : Obligations.DecodeOfEncodeIsIdentity := by
  intro i hwf
  rw [decodeWord_eq_strict]
  cases i with
  | sys nnn => exact (decodeWith_family0 (famOf_formNNN ..)).trans (congrArg _ (decode0_formNNN hwf))
  | cls | ret => rfl
  | jp | call | ldI | jpV0 => simp [encode, decodeWith]
  | seImm | sneImm | ldImm | addImm | rnd => simp [encode, decodeWith]
  | drw => simp [encode, decodeWith]
  | seReg => simp [encode, decodeWith_true_family5, Fin.ext_iff]
  | sneReg => simp [encode, decodeWith_true_family9, Fin.ext_iff]
  | ldReg | orReg | andReg | xorReg | addReg | subReg | shr | subnReg | shl =>
    simp [encode, decodeWith_family8, decode8]
  | skp | sknp => simp [encode, decodeWith_familyE, decodeE]
  | ldVxDT | ldVxK | ldDTVx | ldSTVx | addI | ldF | ldB | storeRegs | loadRegs =>
    simp [encode, decodeWith_familyF, decodeF]

/-- Settles O5: the decoder computes each. -/
theorem sampleWordsDecode : Obligations.SampleWordsDecode := ⟨rfl, rfl, rfl, rfl, rfl, rfl, rfl, rfl, rfl⟩

/-! ## From a word to its instruction and back (R95, R97) -/

theorem encode_decode0 (hf : famOf w = 0x0) :
    encode (decode0 true w) = w ∧ (decode0 true w).wellFormed = true := by
  by_cases hcls : w = 0x00E0#16
  · subst hcls
    exact ⟨rfl, rfl⟩
  by_cases hret : w = 0x00EE#16
  · subst hret
    exact ⟨rfl, rfl⟩
  have hword {nnn : Addr} (e : nnnOf w = nnn) : formNNN 0x0 nnn = w := formNNN_eq_iff.mpr ⟨hf, e⟩
  have hE0 : nnnOf w ≠ 0x0E0#12 := fun e => hcls (hword e).symm
  have hEE : nnnOf w ≠ 0x0EE#12 := fun e => hret (hword e).symm
  rw [decode0_true_sys hcls hret]
  exact ⟨hword rfl, by simp [Instr.wellFormed, sysFieldOk, params, hE0, hEE]⟩

theorem encode_of_decode8 (hf : famOf w = 0x8) (h : decode8 w = .ok i) : encode i = w ∧ i.wellFormed = true := by
  unfold decode8 at h
  split at h <;> cases h
  all_goals exact ⟨formXYN_of_fields hf ‹_›, rfl⟩

theorem encode_of_decodeE (hf : famOf w = 0xE) (h : decodeE w = .ok i) : encode i = w ∧ i.wellFormed = true := by
  unfold decodeE at h
  split at h <;> cases h
  all_goals exact ⟨formXKK_of_fields hf ‹_›, rfl⟩

theorem encode_of_decodeF (hf : famOf w = 0xF) (h : decodeF w = .ok i) : encode i = w ∧ i.wellFormed = true := by
  unfold decodeF at h
  split at h <;> cases h
  all_goals exact ⟨formXKK_of_fields hf ‹_›, rfl⟩

/-- A guard that rejects, written as the decoder writes it. -/
theorem ok_of_guard {p : Prop} [Decidable p] {j : Instr} {e : Illegal}
    (h : (if p then .ok j else .error e) = Except.ok i) : p ∧ j = i := by
  split at h
  · exact ⟨‹_›, Except.ok.inj h⟩
  · cases h

/-- Settles O2: by family. -/
theorem encodeOfDecodeIsIdentity : Obligations.EncodeOfDecodeIsIdentity := by
  intro w i h
  rw [decodeWord_eq_strict] at h
  obtain hf | hf | hf | hf | hf | hf | hf := famOf_cases w
  · rw [decodeWith_family0 hf] at h
    exact Except.ok.inj h ▸ encode_decode0 hf
  · rw [decodeWith_true_family5 hf] at h
    obtain ⟨hn, rfl⟩ := ok_of_guard h
    exact ⟨formXYN_of_fields hf (congrArg _ hn), rfl⟩
  · exact encode_of_decode8 hf (decodeWith_family8 hf ▸ h)
  · rw [decodeWith_true_family9 hf] at h
    obtain ⟨hn, rfl⟩ := ok_of_guard h
    exact ⟨formXYN_of_fields hf (congrArg _ hn), rfl⟩
  · exact encode_of_decodeE hf (decodeWith_familyE hf ▸ h)
  · exact encode_of_decodeF hf (decodeWith_familyF hf ▸ h)
  · obtain ⟨j, hj, henc⟩ := decodeWith_plain hf
    obtain rfl : j = i := Except.ok.inj ((hj true).symm.trans h)
    exact henc

/-! ## The words without a handler (R99) -/

theorem decode8_rejects_iff : (∃ e, decode8 w = .error e) ↔ (nOf w).val ∈ [0x8, 0x9, 0xA, 0xB, 0xC, 0xD, 0xF] := by
  unfold decode8
  split
  case h_10 =>
    have hlt := (nOf w).isLt
    simp only [imp_false] at *
    simp only [Except.error.injEq, exists_eq', List.mem_cons, List.not_mem_nil, or_false, true_iff]
    omega
  all_goals simp [*]

theorem decodeE_rejects_iff : (∃ e, decodeE w = .error e) ↔ kkOf w ∉ [0x9E, 0xA1] := by
  unfold decodeE
  split <;> simp_all [← BitVec.toNat_inj]

theorem decodeF_rejects_iff :
    (∃ e, decodeF w = .error e) ↔ kkOf w ∉ [0x07, 0x0A, 0x15, 0x18, 0x1E, 0x29, 0x33, 0x55, 0x65] := by
  unfold decodeF
  split <;> simp_all [← BitVec.toNat_inj]

/-- Settles O3: by family. -/
theorem noHandlerExactlyForIllegalWords : Obligations.NoHandlerExactlyForIllegalWords := by
  intro w
  rw [decodeWord_eq_strict]
  obtain hf | hf | hf | hf | hf | hf | hf := famOf_cases w
  · simp [decodeWith_family0 hf, hf]
  · by_cases hn : nOf w = 0 <;> simp [decodeWith_true_family5 hf, hf, hn]
  · simp [decodeWith_family8 hf, decode8_rejects_iff, hf]
  · by_cases hn : nOf w = 0 <;> simp [decodeWith_true_family9 hf, hf, hn]
  · simp [decodeWith_familyE hf, decodeE_rejects_iff, hf]
  · simp [decodeWith_familyF hf, decodeF_rejects_iff, hf]
  · obtain ⟨i, hi, -, -⟩ := decodeWith_plain hf
    simp [hi, ne_of_mem_plainFamilies hf]

/-! ## Both settings of `DECODE_STRICT` (R96) -/

/-- Both decoders of family 0 agree but on words of the row `SYS` that end in E0 or EE. -/
theorem decode0_lenient_or (w : InstrWord) :
    decode0 false w = decode0 true w ∨ (decode0 true w = .sys (nnnOf w) ∧ (kkOf w = 0xE0 ∨ kkOf w = 0xEE)) := by
  by_cases hcls : w = 0x00E0#16
  · subst hcls
    exact .inl rfl
  by_cases hret : w = 0x00EE#16
  · subst hret
    exact .inl rfl
  rw [decode0_true_sys hcls hret]
  by_cases hkk : kkOf w = 0xE0#8 ∨ kkOf w = 0xEE#8
  · exact .inr ⟨rfl, hkk⟩
  · obtain ⟨hE0, hEE⟩ := not_or.mp hkk
    exact .inl ((if_neg hE0).trans (if_neg hEE))

/-- Settles O6: families 0, 5 and 9 by their equations; no other depends on the setting. -/
theorem lenientDecodeExtendsStrict : Obligations.LenientDecodeExtendsStrict := by
  intro w
  refine ⟨fun hf => ⟨decodeWith_family0 hf, decodeWith_family0 hf⟩,
    fun hf => ⟨decodeWith_false_family5 hf, decodeWith_true_family5 hf⟩,
    fun hf => ⟨decodeWith_false_family9 hf, decodeWith_true_family9 hf⟩, decodeWith_lenient_eq_strict, fun i h => ?_⟩
  by_cases h0 : famOf w = 0x0
  · rw [decodeWith_family0 h0] at h ⊢
    obtain rfl := Except.ok.inj h
    exact (decode0_lenient_or w).imp_left (congrArg _)
  by_cases h5 : famOf w = 0x5
  · rw [decodeWith_true_family5 h5] at h
    exact .inl ((ok_of_guard h).2 ▸ decodeWith_false_family5 h5)
  by_cases h9 : famOf w = 0x9
  · rw [decodeWith_true_family9 h9] at h
    exact .inl ((ok_of_guard h).2 ▸ decodeWith_false_family9 h9)
  exact .inl ((decodeWith_lenient_eq_strict h0 h5 h9).trans h)

/-! ## The row SYS (R98, R140) -/

/-- Settles O24: the policy in force is to raise. -/
theorem sysRaisesInvalidOpcode : Obligations.SysRaisesInvalidOpcode := fun _ s => raises_raise .invalidOpcode s

end Sys2Proof.Machine
end

section
/-! The latch: what an instruction and a step raise, and that a stopped machine is left alone by everything but
`construct`. O9 to O12. -/

namespace Sys2Proof.Machine

variable {s : State}

/-! ## A stopped machine (R128, R254) -/

theorem step_of_stopped (h : s.fault = true) : step s = .next s := if_pos h

theorem stepState_of_stopped (h : s.fault = true) : stepState s = s := by rw [stepState, step_of_stopped h]

/-- Every operation but `construct` leaves a stopped machine as it is. -/
theorem hostOp_of_stopped (k : Nat) {op : HostOp} (h : s.fault = true) (hop : ∀ rom sq mq, op ≠ .construct rom sq mq) :
    (hostOp k op s).2 = s := by
  cases op with
  | construct rom sq mq => exact absurd rfl (hop rom sq mq)
  | step => exact stepState_of_stopped h
  | tickTimers => exact tickTimers_of_stopped h
  | consumeDirtyFlag => exact congrArg Prod.snd (consumeDirtyFlag_of_stopped h)
  | setKeys flags => exact setKeys_of_stopped flags h
  | setKeysChecked flags => exact setKeysChecked_of_stopped flags h
  | deliverCapturedKey key => exact deliverCapturedKey_of_stopped key h
  | readDisplay | isWaitingForKey | shouldSoundTone | faultStatus => rfl

/-- Settles O9: the latch stops the step and, operation by operation, the host. -/
theorem stoppedMachineIsLeftAlone : Obligations.StoppedMachineIsLeftAlone :=
  fun k _ _ h hop => ⟨step_of_stopped h, hostOp_of_stopped k h hop⟩

/-! ## What an instruction raises (R272 to R276) -/

theorem completed_running (i : Instr) (h : s.Running) : (completed i s).Running := (effect_fault i s).trans h

/-- Settles O12: the normal form of the execute phase, by whether the tables give a condition. -/
theorem conditionsRaisedExactlyAtTheirSites : Obligations.ConditionsRaisedExactlyAtTheirSites := by
  intro i s hrun
  refine ⟨outcome i s, exec_eq i s, fun h => ?_, fun h => ?_⟩
  · rw [outcome_of_none h]
    exact completed_running i hrun
  · rw [outcome_of_ne_none h]
    exact ⟨rfl, rfl⟩

/-- The causes a step can latch: those of R272 to R274. -/
abbrev stepCauses : List Cause := [.outOfBounds, .invalidOpcode, .protocolViolation]

theorem mem_stepCauses {c : Cause} (h : c ≠ .none) (hc : c ≠ .inputContractViolation) : c ∈ stepCauses := by
  cases c <;> simp_all

@[simp] theorem pcCondition_ne_inputContract (n : Nat) : pcCondition n ≠ .inputContractViolation := by
  unfold pcCondition
  split <;> decide

/-- InputContractViolation is no instruction's (R275). -/
theorem conditionOf_ne_inputContract (i : Instr) (s : State) : conditionOf i s ≠ .inputContractViolation := by
  cases i with
  | sys => exact nofun
  | ret | jp | call | seImm | sneImm | seReg | sneReg | jpV0 | drw | skp | sknp | ldVxK | addI | ldB | storeRegs
  | loadRegs =>
    simp only [conditionOf]
    split_ifs <;> simp
  | _ => exact pcCondition_ne_inputContract _

/-! ## What a step raises (R120 to R122) -/

/-- An instruction leaves a running machine running or latches one of the three causes. -/
theorem outcome_running_or_latch (i : Instr) (h : s.Running) :
    (outcome i s).Running ∨ ∃ c ∈ stepCauses, outcome i s = s.latch c := by
  by_cases hc : conditionOf i s = .none
  · exact .inl (outcome_of_none hc ▸ completed_running i h)
  · exact .inr ⟨_, mem_stepCauses hc (conditionOf_ne_inputContract i s), outcome_of_ne_none hc⟩

/-- A step of a running machine ends in a next state, which runs or holds one of the three causes: raised at the fetch,
at the decode or by the instruction. -/
theorem step_of_running (h : s.Running) :
    ∃ t, step s = .next t ∧ (t.Running ∨ ∃ c ∈ stepCauses, t = s.latch c) := by
  cases hf : fetchWord s.mem s.pc.toNat with
  | none => exact ⟨_, step_of_no_word h hf, .inr ⟨_, by simp, rfl⟩⟩
  | some w =>
    cases hd : decodeWord w with
    | error e => exact ⟨_, step_of_illegal h hf hd, .inr ⟨_, by simp, rfl⟩⟩
    | ok i => exact ⟨_, (step_of_decode h hf hd).trans (exec_eq i s), outcome_running_or_latch i h⟩

/-- Settles O10: an instruction by its normal form, a step by whether the machine runs. -/
theorem everyStepAnswersNextState : Obligations.EveryStepAnswersNextState := by
  refine ⟨fun i s => ⟨_, exec_eq i s⟩, fun s => ?_⟩
  obtain h | h := running_or_stopped s
  · obtain ⟨t, ht, -⟩ := step_of_running h
    exact ⟨t, ht⟩
  · exact ⟨s, step_of_stopped h⟩

/-- Settles O11: what a step raises it latches, and a stopped machine is left alone. -/
theorem raisedConditionStopsTheMachine : Obligations.RaisedConditionStopsTheMachine := by
  intro s t hrun h
  obtain ⟨u, hu, hcases⟩ := step_of_running hrun
  obtain rfl : t = u := Host.Outcome.next.inj (h.symm.trans hu)
  refine hcases.imp_right ?_
  rintro ⟨c, hc, rfl⟩
  exact ⟨rfl, hc, step_of_stopped rfl, fun k _ hop => hostOp_of_stopped k rfl hop⟩

end Sys2Proof.Machine
end

section
/-! Control flow and arithmetic by the normal form: instructions whose only condition is their next PC, and those that
write a result and then a flag. O28, O30, O31, O36, O37. -/

namespace Sys2Proof.Machine

variable {s : State} {i : Instr} {x : RegIdx}

/-! ## The next PC as the only condition (R125, R126, R145) -/

/-- An instruction with no check but that of its next PC lands there, or raises OutOfBounds. -/
theorem exec_of_pcCondition (h : conditionOf i s = pcCondition (nextPc i s)) :
    (nextPc i s < 4096 → ∃ t, exec i s = .next t ∧ t.pc.toNat = nextPc i s ∧ OnlyChanges (writesParts i) s t) ∧
    (4096 ≤ nextPc i s → Raises (exec i s) .outOfBounds) := by
  constructor
  · intro hlt
    have hnone : conditionOf i s = .none := h.trans (pcCondition_of_lt hlt)
    exact ⟨_, exec_of_none hnone, completed_pc_toNat hnone, completed_onlyChanges hnone⟩
  · exact fun hle => raises_of_condition (h.trans (pcCondition_of_le hle)) (by decide)

theorem nextPc_ret (h : 0 < s.sp.val) : nextPc .ret s = (s.stack[s.sp.val - 1]).toNat + 2 := by
  rw [nextPc, toList_getD_eq_getElem s.stack (by omega) 0]

theorem conditionOf_ret (h : 0 < s.sp.val) : conditionOf .ret s = pcCondition (nextPc .ret s) := if_neg (by omega)

/-- Settles O28: a non-empty stack leaves the next PC as the only condition. -/
theorem retResumesAfterCallSite : Obligations.RetResumesAfterCallSite := by
  intro s
  refine ⟨fun h hlt => ?_, fun h => raises_of_condition (if_pos h) (by decide), fun h hle => ?_⟩
  · have hnone : conditionOf .ret s = .none := by rw [conditionOf_ret h, nextPc_ret h, pcCondition_of_lt hlt]
    exact ⟨_, exec_of_none hnone, (completed_pc_toNat hnone).trans (nextPc_ret h), Nat.sub_add_cancel h, rfl,
      completed_onlyChanges hnone⟩
  · exact (exec_of_pcCondition (conditionOf_ret h)).2 (nextPc_ret h ▸ hle)

/-- Settles O30: both skips end at a next PC that the comparison picks. -/
theorem skipsOnImmediate : Obligations.SkipsOnImmediate := by
  intro x kk s i skip hi
  obtain ⟨rfl, hskip⟩ | ⟨rfl, hskip⟩ := hi
  · obtain rfl : (s.reg x == kk) = skip := Bool.eq_iff_iff.mpr (beq_iff_eq.trans hskip.symm)
    exact exec_of_pcCondition (i := .seImm x kk) (pcCondition_skip _ beq_iff_eq _)
  · obtain rfl : (s.reg x != kk) = skip := Bool.eq_iff_iff.mpr (bne_iff_ne.trans hskip.symm)
    exact exec_of_pcCondition (i := .sneImm x kk) (pcCondition_skip_unless _ bne_iff_ne _)

/-- Settles O31: as with a byte, the comparison picks the next PC. -/
theorem skipsOnRegister : Obligations.SkipsOnRegister := by
  intro x y s i skip hi
  obtain ⟨rfl, hskip⟩ | ⟨rfl, hskip⟩ := hi
  · obtain rfl : (s.reg x == s.reg y) = skip := Bool.eq_iff_iff.mpr (beq_iff_eq.trans hskip.symm)
    exact exec_of_pcCondition (i := .seReg x y) (pcCondition_skip _ beq_iff_eq _)
  · obtain rfl : (s.reg x != s.reg y) = skip := Bool.eq_iff_iff.mpr (bne_iff_ne.trans hskip.symm)
    exact exec_of_pcCondition (i := .sneReg x y) (pcCondition_skip_unless _ bne_iff_ne _)

/-! ## A result and its flag (R129, R130, R160) -/

/-- The instruction falls through after writing the result `r` to `V[x]` and then the flag `f` to `VF`. -/
structure WritesResultAndFlag (i : Instr) (s : State) (x : RegIdx) (r : Byte) (f : Bool) : Prop where
  condition : conditionOf i s = pcCondition (nextPc i s)
  next : nextPc i s = s.pc.toNat + 2
  effect : effect i s = (s.setReg x r).setReg vf (flagByte f)
  regs : destRegs i = [x, 15]
  parts : writesParts i = [.pc, .regs]

/-- What such an instruction leaves: the result unless `V[x]` is `VF`, the flag in any case, and all else as it was. -/
theorem WritesResultAndFlag.exec_next {r : Byte} {f : Bool} (h : WritesResultAndFlag i s x r f)
    (hpc : s.pc.toNat + 2 < 4096) :
    ∃ t, exec i s = .next t ∧ (x ≠ 15 → t.reg x = r) ∧ t.reg 15 = flagByte f ∧ t.pc.toNat = s.pc.toNat + 2 ∧
      RegsOnly [x, 15] s t ∧ OnlyChanges [.pc, .regs] s t := by
  have hnone : conditionOf i s = .none := by rw [h.condition, h.next, pcCondition_of_lt hpc]
  refine ⟨_, exec_of_none hnone, fun hx => ?_, ?_, (completed_pc_toNat hnone).trans h.next,
    h.regs ▸ completed_regsOnly i s, h.parts ▸ completed_onlyChanges hnone⟩
  · rw [reg_completed, h.effect, reg_of_result_flag hx]
  · rw [reg_completed, h.effect, flag_of_result_flag]

theorem flagByte_decide (p : Prop) [Decidable p] : flagByte (decide p) = if p then 1 else 0 := by
  by_cases h : p <;> simp [h]

theorem addReg_writes (x y : RegIdx) (s : State) :
    WritesResultAndFlag (.addReg x y) s x (sum8 (s.reg x) (s.reg y)) (carryOut (s.reg x) (s.reg y)) :=
  ⟨rfl, rfl, rfl, rfl, rfl⟩

/-- Settles O36: the sum is written, then its carry. -/
theorem addSetsCarry : Obligations.AddSetsCarry := by
  intro x y s hpc
  obtain ⟨t, ht, hsum, hcarry, hframe⟩ := (addReg_writes x y s).exec_next hpc
  refine ⟨t, ht, fun hx => ?_, ?_, hframe⟩
  · rw [hsum hx, sum8_toNat]
  · rw [hcarry, carryOut, flagByte_decide]

theorem subReg_writes (x y : RegIdx) (s : State) :
    WritesResultAndFlag (.subReg x y) s x (diff8 (s.reg x) (s.reg y)) (notBorrow (s.reg x) (s.reg y)) :=
  ⟨rfl, rfl, rfl, rfl, rfl⟩

theorem subnReg_writes (x y : RegIdx) (s : State) :
    WritesResultAndFlag (.subnReg x y) s x (diff8 (s.reg y) (s.reg x)) (notBorrow (s.reg y) (s.reg x)) :=
  ⟨rfl, rfl, rfl, rfl, rfl⟩

/-- Settles O37: the two subtractions differ only in which operand is the minuend. -/
theorem subtractSetsNotBorrow : Obligations.SubtractSetsNotBorrow := by
  intro x y s i minuend subtrahend hi hpc
  obtain ⟨a, b, rfl, rfl, hwrites⟩ : ∃ a b : Byte, minuend = a.toNat ∧ subtrahend = b.toNat ∧
      WritesResultAndFlag i s x (diff8 a b) (notBorrow a b) := by
    obtain ⟨rfl, hm, hs⟩ | ⟨rfl, hm, hs⟩ := hi
    · exact ⟨_, _, hm, hs, subReg_writes x y s⟩
    · exact ⟨_, _, hm, hs, subnReg_writes x y s⟩
  obtain ⟨t, ht, hdiff, hborrow, hframe⟩ := hwrites.exec_next hpc
  refine ⟨t, ht, fun hx => ?_, ?_, hframe⟩
  · rw [hdiff hx, diff8_toNat]
  · rw [hborrow, notBorrow, flagByte_decide]

end Sys2Proof.Machine
end

section
/-! Jumps, calls and the way back, by the normal form and the statements already settled about `RET` and the decoder. O25,
O26, O27, O29, O33. -/

namespace Sys2Proof.Machine

variable {s : State} {i : Instr} {nnn : Addr}

/-! ## Jumps (R141, R142, R144) -/

theorem conditionOf_jp_eq_none (h : 512 ≤ nnn.toNat) : conditionOf (.jp nnn) s = .none := if_neg (Nat.not_lt.mpr h)

/-- An instruction whose `next_pc` is an absolute target lands exactly there. -/
theorem completed_pc_of_target (h : nextPc i s = nnn.toNat) : (completed i s).pc = nnn := by
  rw [completed, h, BitVec.ofNat_toNat, BitVec.setWidth_eq]

/-- Settles O25: the target's lower bound is the only condition. -/
theorem jpLandsOnTarget : Obligations.JpLandsOnTarget := by
  intro nnn s
  refine ⟨fun h => ?_, fun h => raises_of_condition (if_pos h) (by decide)⟩
  have hnone : conditionOf (.jp nnn) s = .none := conditionOf_jp_eq_none h
  exact ⟨_, exec_of_none hnone, completed_pc_of_target rfl, completed_onlyChanges hnone⟩

/-- Settles O26: both bounds are checked on the sum itself, and a sum that meets them fits in `PC`. -/
theorem jpV0LandsOnSum : Obligations.JpV0LandsOnSum := by
  intro nnn s
  refine ⟨fun hlow hhigh => ?_, fun h => raises_of_condition (if_pos h) (by decide)⟩
  have hnone : conditionOf (.jpV0 nnn) s = .none := if_neg (by omega)
  exact ⟨_, exec_of_none hnone, completed_pc_toNat hnone, completed_onlyChanges hnone⟩

/-- Settles O33: the word decodes to the jump, and the jump to `PC` writes to `PC` what stands there. -/
theorem jumpToSelfChangesNothing : Obligations.JumpToSelfChangesNothing := by
  intro s hrun hpc hf
  have hd : decodeWord (encode (.jp s.pc)) = .ok (.jp s.pc) := decodeOfEncodeIsIdentity (.jp s.pc) rfl
  have hself : completed (.jp s.pc) s = s := by
    change { s with pc := (completed (.jp s.pc) s).pc } = s
    rw [completed_pc_of_target rfl]
  rw [step_of_decode hrun hf hd, exec_of_none (conditionOf_jp_eq_none hpc), hself]

/-! ## Calls (R143, R145, R150) -/

theorem conditionOf_call_eq_none (hroom : s.sp.val < 16) (h : 512 ≤ nnn.toNat) :
    conditionOf (.call nnn) s = .none :=
  (if_neg (Nat.ne_of_lt hroom)).trans (if_neg (Nat.not_lt.mpr h))

theorem completed_call_sp (nnn : Addr) (h : s.sp.val < 16) : (completed (.call nnn) s).sp.val = s.sp.val + 1 :=
  Nat.min_eq_left h

theorem completed_call_top (nnn : Addr) (h : s.sp.val < 16) : (completed (.call nnn) s).stack[s.sp.val] = s.pc :=
  Vector.getElem_setIfInBounds_self h

/-- Settles O27: the depth is the first condition, the target's lower bound the second. -/
theorem callPushesCallSite : Obligations.CallPushesCallSite := by
  intro nnn s
  refine ⟨fun hroom h => ?_, fun hfull => raises_of_condition (if_pos hfull) (by decide), fun hroom h => ?_⟩
  · have hnone : conditionOf (.call nnn) s = .none := conditionOf_call_eq_none hroom h
    refine ⟨_, exec_of_none hnone, completed_pc_of_target rfl, completed_call_sp nnn hroom, completed_call_top nnn hroom,
      fun k hk => completed_pushesOnlyItsEntry (.call nnn) s k fun _ _ => hk, completed_onlyChanges hnone⟩
  · exact raises_of_condition ((if_neg (Nat.ne_of_lt hroom)).trans (if_pos h)) (by decide)

/-- Settles O29: the entry that `CALL` pushed (O27) is the one on top that `RET` resumes after (O28). -/
theorem callThenRetRoundTrip : Obligations.CallThenRetRoundTrip := by
  intro nnn s hroom h hpc
  obtain ⟨t, ht, -, htsp, httop, -, -⟩ := (callPushesCallSite nnn s).1 hroom h
  refine ⟨t, ht, fun u hsp hstack => ?_⟩
  have husp : u.sp.val = s.sp.val + 1 := hsp ▸ htsp
  have hpos : 0 < u.sp.val := by omega
  have htop : u.stack[u.sp.val - 1] = s.pc := by simpa [husp, hstack] using httop
  obtain ⟨r, hr, hrpc, hrsp, -, -⟩ := (retResumesAfterCallSite u).1 hpos (htop ▸ hpc)
  exact ⟨r, hr, htop ▸ hrpc, Fin.ext (by omega)⟩

end Sys2Proof.Machine
end

section
/-! Loads, immediate add, logic and `RND` by the normal form: instructions that fall through after writing one register
and no flag. O34, O35, O39. -/

namespace Sys2Proof.Machine

variable {s : State} {i : Instr} {x : RegIdx}

/-- The instruction falls through after writing `r` to `V[x]` and to no other register. -/
structure WritesOneReg (i : Instr) (s : State) (x : RegIdx) (r : Byte) : Prop where
  condition : conditionOf i s = pcCondition (nextPc i s)
  next : nextPc i s = s.pc.toNat + 2
  result : (effect i s).reg x = r
  regs : destRegs i = [x]

/-- What such an instruction leaves: its completed state, with the result in `V[x]`. -/
theorem WritesOneReg.exec_completed {r : Byte} (h : WritesOneReg i s x r) (hpc : s.pc.toNat + 2 < 4096) :
    exec i s = .next (completed i s) ∧ (completed i s).reg x = r ∧ (completed i s).pc.toNat = s.pc.toNat + 2 ∧
      RegsOnly [x] s (completed i s) ∧ OnlyChanges (writesParts i) s (completed i s) := by
  have hnone : conditionOf i s = .none := by rw [h.condition, h.next, pcCondition_of_lt hpc]
  exact ⟨exec_of_none hnone, h.result, (completed_pc_toNat hnone).trans h.next, h.regs ▸ completed_regsOnly i s,
    completed_onlyChanges hnone⟩

/-! ## Immediates (R161, R162) -/

theorem ldImm_writes (x : RegIdx) (kk : Byte) (s : State) : WritesOneReg (.ldImm x kk) s x kk :=
  ⟨rfl, rfl, reg_setReg_self .., rfl⟩

theorem addImm_writes (x : RegIdx) (kk : Byte) (s : State) :
    WritesOneReg (.addImm x kk) s x (sum8 (s.reg x) kk) :=
  ⟨rfl, rfl, reg_setReg_self .., rfl⟩

/-- Settles O34: both write one register, `ADD` the sum cut to a byte. -/
theorem loadAndAddImmediate : Obligations.LoadAndAddImmediate := by
  intro x kk s hpc
  obtain ⟨hadd, hsum, hframe⟩ := (addImm_writes x kk s).exec_completed hpc
  exact ⟨⟨_, (ldImm_writes x kk s).exec_completed hpc⟩, _, hadd, by rw [hsum, sum8_toNat], hframe⟩

/-! ## Copy and logic (R163 to R166) -/

theorem ldReg_writes (x y : RegIdx) (s : State) : WritesOneReg (.ldReg x y) s x (s.reg y) :=
  ⟨rfl, rfl, reg_setReg_self .., rfl⟩

theorem orReg_writes (x y : RegIdx) (s : State) : WritesOneReg (.orReg x y) s x (s.reg x ||| s.reg y) :=
  ⟨rfl, rfl, reg_setReg_self .., rfl⟩

theorem andReg_writes (x y : RegIdx) (s : State) : WritesOneReg (.andReg x y) s x (s.reg x &&& s.reg y) :=
  ⟨rfl, rfl, reg_setReg_self .., rfl⟩

theorem xorReg_writes (x y : RegIdx) (s : State) : WritesOneReg (.xorReg x y) s x (s.reg x ^^^ s.reg y) :=
  ⟨rfl, rfl, reg_setReg_self .., rfl⟩

/-- Settles O35: the four differ only in the byte written, each bit of which is `f` of the two old bits. -/
theorem registerCopyAndLogic : Obligations.RegisterCopyAndLogic := by
  intro x y s i f hi hpc
  obtain ⟨r, hwrites, hparts, hbits⟩ : ∃ r, WritesOneReg i s x r ∧ writesParts i = [.pc, .regs] ∧
      ∀ k, r.getLsbD k = f ((s.reg x).getLsbD k) ((s.reg y).getLsbD k) := by
    obtain ⟨rfl, rfl⟩ | ⟨rfl, rfl⟩ | ⟨rfl, rfl⟩ | ⟨rfl, rfl⟩ := hi
    · exact ⟨_, ldReg_writes x y s, rfl, fun _ => rfl⟩
    · exact ⟨_, orReg_writes x y s, rfl, fun _ => BitVec.getLsbD_or⟩
    · exact ⟨_, andReg_writes x y s, rfl, fun _ => BitVec.getLsbD_and⟩
    · exact ⟨_, xorReg_writes x y s, rfl, fun _ => BitVec.getLsbD_xor⟩
  obtain ⟨hexec, hreg, hnext, hregs, hframe⟩ := hwrites.exec_completed hpc
  exact ⟨_, hexec, fun k _ => hreg ▸ hbits k, hnext, hregs, hparts ▸ hframe⟩

/-! ## Random (R172, R250) -/

theorem rnd_writes (x : RegIdx) (kk : Byte) (s : State) :
    WritesOneReg (.rnd x kk) s x (Config.randomByte s.draws &&& kk) :=
  ⟨rfl, rfl, reg_setReg_self .., rfl⟩

/-- A bit that is 0 in the mask is 0 in the masked byte. -/
theorem getLsbD_masked {kk : Byte} {k : Nat} (b : Byte) (h : kk.getLsbD k = false) :
    (b &&& kk).getLsbD k = false := by
  rw [BitVec.getLsbD_and, h, Bool.and_false]

/-- Settles O39: the byte written is the current draw under the mask, and the counter moves on by one. -/
theorem randomIsOneFreshMaskedDraw : Obligations.RandomIsOneFreshMaskedDraw := by
  intro x kk s hpc
  obtain ⟨hexec, hreg, hframe⟩ := (rnd_writes x kk s).exec_completed hpc
  have hdraws : (completed (.rnd x kk) s).draws = s.draws + 1 := rfl
  exact ⟨_, hexec, hreg, hdraws, fun _ hk => hreg ▸ getLsbD_masked _ hk, hframe⟩

end Sys2Proof.Machine
end

section
/-! Two draws of one sprite, from the statement already settled about one draw (O41), and `CLS`. O40, O42. -/

namespace Sys2Proof.Machine

/-! ## Drawing twice (R191) -/

/-- A sprite is read from memory byte by byte, so it falls on the same pixels in any memory that reads alike. -/
theorem spriteOn_congr {m m' : Memory} (h : ∀ a, m'.readByte a = m.readByte a) (a ox oy n px py : Nat) :
    spriteOn m' a ox oy n px py ↔ spriteOn m a ox oy n px py := by
  rw [spriteOn, h, spriteOn]

/-- Turning the same pixels over twice leaves each as it was. -/
theorem lit_turned_over_twice {d d' d'' : Display} {on : Nat → Nat → Prop}
    (hfst : ∀ x y, d'.lit x y = true ↔ ¬(d.lit x y = true ↔ on x y))
    (hsnd : ∀ x y, d''.lit x y = true ↔ ¬(d'.lit x y = true ↔ on x y)) (x y : Nat) : d''.lit x y = d.lit x y := by
  rw [Bool.eq_iff_iff, hsnd, hfst]
  by_cases hon : on x y <;> simp [hon]

/-- Settles O42: the first draw keeps all that the second reads but the display, so the second turns the same pixels over
again, and the pixels it clears are those the first lit. -/
theorem drawingTwiceRestoresDisplay : Obligations.DrawingTwiceRestoresDisplay := by
  intro x y n s hx hy hn hpc
  obtain ⟨t, ht, htpix, -, -, -, htpc, htregs, htframe⟩ := (drawXorsClippedSprite x y n s).1 hn (by omega)
  have hti : t.i = s.i := htframe .index (by decide)
  have htmem : ∀ a, t.mem.readByte a = s.mem.readByte a := htframe .memory (by decide)
  have htx : t.reg x = s.reg x := htregs x (by simpa using hx)
  have hty : t.reg y = s.reg y := htregs y (by simpa using hy)
  obtain ⟨u, hu, hupix, -, huflag, -⟩ := (drawXorsClippedSprite x y n t).1 (hti ▸ hn) (by omega)
  simp only [hti, htx, hty, spriteOn_congr htmem] at hupix
  have hrestored : ∀ px py, u.pix.lit px py = s.pix.lit px py := lit_turned_over_twice htpix hupix
  refine ⟨t, u, ht, hu, hrestored, ?_⟩
  simp only [huflag, hrestored, and_comm]

/-! ## Clear (R190) -/

/-- Settles O40: the completed state has the blank display and DIRTY set. -/
theorem clearBlanksDisplay : Obligations.ClearBlanksDisplay := by
  intro s hpc
  have hnone : conditionOf .cls s = .none := pcCondition_of_lt hpc
  exact ⟨_, exec_of_none hnone, lit_blank, rfl, completed_pc_toNat hnone, completed_onlyChanges hnone⟩

end Sys2Proof.Machine
end

section
/-! The timer copies by the normal form, and the key-capture protocol from the statement already settled about `Fx0A`
(O44) and the delivery (O56). O43, O45. -/

namespace Sys2Proof.Machine

variable {s t : State} {i : Instr}

/-! ## Timer copies (R202 to R204) -/

theorem ldVxDT_writes (x : RegIdx) (s : State) : WritesOneReg (.ldVxDT x) s x s.dt :=
  ⟨rfl, rfl, reg_setReg_self .., rfl⟩

/-- Settles O43: `Fx07` writes one register, the other two one timer, and all three fall through. -/
theorem timerCopies : Obligations.TimerCopies := by
  intro x s hpc
  refine ⟨⟨_, (ldVxDT_writes x s).exec_completed hpc⟩, ?_, ?_⟩
  · have hnone : conditionOf (.ldDTVx x) s = .none := pcCondition_of_lt hpc
    exact ⟨_, exec_of_none hnone, rfl, completed_pc_toNat hnone, completed_onlyChanges hnone⟩
  · have hnone : conditionOf (.ldSTVx x) s = .none := pcCondition_of_lt hpc
    exact ⟨_, exec_of_none hnone, rfl, completed_pc_toNat hnone, completed_onlyChanges hnone⟩

/-! ## Step, deliver, step (R205, R247, R248) -/

/-- A fetched encoding runs its instruction. -/
theorem step_of_encode (hrun : s.Running) (hi : i.wellFormed = true)
    (hf : fetchWord s.mem s.pc.toNat = some (encode i)) : step s = exec i s :=
  step_of_decode hrun hf (decodeOfEncodeIsIdentity i hi)

/-- A word is read from memory byte by byte, so it is the same in any memory that reads alike. -/
theorem fetchWord_congr {m m' : Memory} (h : ∀ a, m'.readByte a = m.readByte a) (a : Nat) :
    fetchWord m' a = fetchWord m a := by
  rw [fetchWord, h, h, fetchWord]

/-- A change of the wait state alone leaves the machine at the same word. -/
theorem same_word_of_wait_change (h : OnlyChanges [.wait] s t) :
    t.fault = s.fault ∧ t.pc = s.pc ∧ fetchWord t.mem t.pc.toNat = fetchWord s.mem s.pc.toNat := by
  have hpc : t.pc = s.pc := h .pc (by decide)
  refine ⟨(h .latch (by decide)).1, hpc, ?_⟩
  rw [fetchWord_congr (h .memory (by decide)), hpc]

/-- Settles O45: the wait (O44) and the delivery (O56) change the wait state alone, so the second step runs the same
`Fx0A`, now with the key at hand. -/
theorem keyCaptureRoundTrip : Obligations.KeyCaptureRoundTrip := by
  intro x key s hrun hidle hpc hf
  obtain ⟨t, ht, htw, -, -, hwait⟩ := (keyWaitStateMachine x s).1 hidle
  obtain ⟨htfault, htpc, htf⟩ := same_word_of_wait_change hwait
  have htrun : t.Running := htfault.trans hrun
  obtain ⟨hkey, hvalid, hdw, hdelivery, -⟩ := (deliveredKeyIsHeldForTheWait key key t htrun).1 htw
  obtain ⟨hdfault, hdpc, hdf⟩ := same_word_of_wait_change hdelivery
  have hdrun : (deliverCapturedKey key t).Running := hdfault.trans htrun
  have hpcs : (deliverCapturedKey key t).pc = s.pc := hdpc.trans htpc
  obtain ⟨u, hu, hreg, huw, -, -, hupc, -, htaken⟩ :=
    (keyWaitStateMachine x (deliverCapturedKey key t)).2.2 hdw hvalid (hpcs ▸ hpc)
  exact ⟨t, u, (step_of_encode hrun rfl hf).trans ht, htpc, htw, hdw,
    (step_of_encode hdrun rfl (hdf.trans (htf.trans hf))).trans hu, hreg ▸ hkey, huw, hpcs ▸ hupc,
    (htaken .latch (by decide)).1.trans hdrun⟩

end Sys2Proof.Machine
end

section
/-! The glyph address by the normal form, and a bulk store followed by a bulk load from the statements already settled
about each (O49, O50). O46, O51. -/

namespace Sys2Proof.Machine

/-! ## The glyph address (R222) -/

/-- Five times a byte is an address: at most 1275. -/
theorem five_mul_reg_lt (x : RegIdx) (s : State) : 5 * (s.reg x).toNat < 4096 := by
  have hbyte : (s.reg x).toNat < 256 := (s.reg x).isLt
  omega

/-- Settles O46: the product is below 4096, so the 12 bits of `I` hold it whole. -/
theorem fontAddressIsFiveTimesDigit : Obligations.FontAddressIsFiveTimesDigit := by
  intro x s hpc
  have hnone : conditionOf (.ldF x) s = .none := pcCondition_of_lt hpc
  exact ⟨_, exec_of_none hnone, pcOf_toNat (five_mul_reg_lt x s), completed_pc_toNat hnone,
    completed_onlyChanges hnone⟩

/-! ## Store, then load (R224, R225) -/

/-- Without the memory-access quirk a bulk transfer leaves `I` where it is. -/
theorem bulkNextI_of_no_quirk {s : State} (hq : s.memAccessQuirk = false) (x : RegIdx) :
    bulkNextI s x = s.i.toNat := by
  simp [bulkNextI, hq]

/-- Settles O51: the store (O49) leaves `I` and the quirk alone, so the load (O50) reads the block just written. -/
theorem bulkStoreThenLoadRestores : Obligations.BulkStoreThenLoadRestores := by
  intro x s between hq hi hpc
  obtain ⟨t, ht, hstored, -, hti, htpc, htframe⟩ :=
    (bulkStoreWritesRegisterBlock x s _ (bulkNextI_of_no_quirk hq x).symm).1 hi s.i.isLt (by omega)
  have htq : t.memAccessQuirk = false := (htframe .quirks (by decide)).2.trans hq
  obtain ⟨u, hu, hloaded, hkept, -⟩ :=
    (bulkLoadReadsRegisterBlock x { t with v := between } _ (bulkNextI_of_no_quirk htq x).symm).1 (hti ▸ hi)
      t.i.isLt (by simp only [htpc]; omega)
  refine ⟨t, u, ht, hu, fun k hk => ?_, fun k hk => hkept k (mem_regsUpTo.not.mpr (Nat.not_le.mpr hk))⟩
  calc u.reg k = t.mem.readByte (t.i.toNat + k.val) := hloaded k hk
    _ = s.reg k := by rw [hti, hstored k hk]

end Sys2Proof.Machine
end

section
/-! What the host's queries answer on a running machine, and the linear copy of the grid as the concatenation of its
rows. O57, O59. -/

namespace Sys2Proof.Machine

variable {s : State}

/-! ## Queries on a running machine (R244, R247, R249) -/

theorem readDisplay_of_running (k : Nat) (h : s.Running) : readDisplay k s = s.pix := by simp [readDisplay, h]

theorem isWaitingForKey_of_running (k : Nat) (h : s.Running) : isWaitingForKey k s = s.waiting := by
  simp [isWaitingForKey, h]

theorem shouldSoundTone_of_running (k : Nat) (h : s.Running) : shouldSoundTone k s = decide (0 < s.st.toNat) := by
  simp [shouldSoundTone, h]

theorem hostOp_shouldSoundTone_of_running (k : Nat) (h : s.Running) :
    hostOp k .shouldSoundTone s = (.flag (decide (0 < s.st.toNat)), s) := by
  rw [hostOp, shouldSoundTone_of_running k h]

/-- Settles O57: the reply is the decision of `ST > 0`, and the state is handed back by the operation's own equation. -/
theorem toneSoundsWhileSoundTimerRuns : Obligations.ToneSoundsWhileSoundTimerRuns := by
  refine fun k s => ⟨rfl, fun h => ?_⟩
  rw [hostOp_shouldSoundTone_of_running k h]
  exact ⟨by simp, by simp⟩

/-! ## The linear copy (R244) -/

/-- The linear copy is the library's concatenation of a vector of vectors. -/
theorem linearDisplay_eq_flatten (d : Display) : linearDisplay d = d.flatten.toList := by
  calc linearDisplay d = (d.toList.map Vector.toList).flatten := List.flatMap_def
    _ = ((d.toArray.map Vector.toArray).toList.map Array.toList).flatten := by
      rw [Array.toList_map, List.map_map]
      rfl
    _ = d.flatten.toList := Array.toList_flatten.symm

theorem linearDisplay_length (d : Display) : (linearDisplay d).length = 2048 := by
  rw [linearDisplay_eq_flatten, Vector.length_toList]

/-- On the grid a pixel is its row's entry. -/
theorem lit_of_lt (d : Display) {x y : Nat} (hx : x < 64) (hy : y < 32) : d.lit x y = d[y][x] := dif_pos ⟨hy, hx⟩

/-- Index `y * 64 + x` lies in row `y` at column `x`: quotient and remainder by the row's length. -/
theorem linearDisplay_getElem? (d : Display) {x y : Nat} (hx : x < 64) (hy : y < 32) :
    (linearDisplay d)[y * 64 + x]? = some (d.lit x y) := by
  have hi : y * 64 + x < 32 * 64 := by omega
  have hrow : (y * 64 + x) / 64 = y := by omega
  have hcol : (y * 64 + x) % 64 = x := by omega
  rw [linearDisplay_eq_flatten, Vector.getElem?_toList, Vector.getElem?_eq_getElem hi, Vector.getElem_flatten,
    lit_of_lt d hx hy]
  simp only [hrow, hcol]

/-- Settles O59: each query by its equation, the linear copy by rows, and the cause's code by the table of R271. -/
theorem queriesAnswerTheState : Obligations.QueriesAnswerTheState := by
  refine fun k s => ⟨fun h => ⟨?_, ?_, hostOp_shouldSoundTone_of_running k h⟩,
    fun x y hx hy => linearDisplay_getElem? s.pix hx hy, linearDisplay_length s.pix, s.faultCause.code, rfl,
    congrArg Cause.code, congrArg Cause.code, congrArg Cause.code, congrArg Cause.code, congrArg Cause.code⟩
  · rw [hostOp, readDisplay_of_running k h]
  · rw [hostOp, isWaitingForKey_of_running k h]

end Sys2Proof.Machine
end
